-- ==== Sys2Proof/Word.lean ====
section
/-! DEFINITION. The word types of the machine (00_scope.md R6, R7). Every value the spec shifts, slices or
wraps is a bit vector, bit 0 least significant. -/

namespace Sys2Proof

/-- A 16-bit word: a memory word, the accumulator, the program counter (R5 WORD and PCW). -/
abbrev Word := BitVec 16

/-- A 12-bit address field or location, an unsigned magnitude 0..4095 (R5 ADDRW). -/
abbrev Addr := BitVec 12

/-- A 3-bit mnemonic code or sub-code (R5 MNW, SUBW). -/
abbrev Code := BitVec 3

/-- The eight 3-bit codes, least first. -/
def allCodes : List Code := [0#3, 1#3, 2#3, 3#3, 4#3, 5#3, 6#3, 7#3]

end Sys2Proof
end

