-- ==== Sys2Proof/Config.lean ====
section
/-! DEFINITION. What is fixed for one machine: the parameters of 00_scope.md R5 that the spec keeps as configuration
fields (KMAXMEMORY, TCLIM, LAYOUT, OPMAP), and the one free value of the spec (93_implementation_defined.md U1). The
values this hardware takes are `pullet16` in Decode.lean. -/

namespace Sys2Proof

/-- The seven opcodes that carry an indirection flag and an address field (30_encoding.md R64). -/
inductive AddrOp where
  | ban | sub | stc | and | add | ld | br
  deriving DecidableEq, Repr

/-- What a 3-bit mnemonic code can select: one of the seven addressed opcodes, or the extended code (R64). -/
inductive Primary where
  | addressed (op : AddrOp)
  | extended
  deriving DecidableEq, Repr

/-- The two orders of the mnemonic and the indirection field that 30_encoding.md R60 names; the address field is bits
11:0 in both (R61). -/
inductive Layout where
  /-- mn = bits 15:13, ind = bit 12: the layout of D1. -/
  | mnFirst
  /-- ind = bit 15, mn = bits 14:12: the order R60 rejects. -/
  | indFirst
  deriving DecidableEq, Repr

/-- The parameters of R5. OPMAP may be partial: a code it gives nothing to is unrecognised (R135). -/
structure Config where
  kMaxMemory : Nat
  tcLim : Nat
  layout : Layout
  opMap : Code → Option Primary

/-- FREE VALUE (U1, R131): the 16-bit values RD draws for Malformed input items, numbered by `State.draws`. It has no
body, so no proof can see a value of it. Log 7. -/
opaque Config.freeWord : Nat → Word

end Sys2Proof
end

