-- ==== Sys2Proof/Syntax.lean ====
section
/-! DEFINITION. The instructions: one constructor per row of spec/opcode_table.json. The seven addressed instructions
carry the indirection flag (0 direct, 1 indirect) and the 12-bit address field; the extended ones carry nothing, since
no rule examines their other bits (30_encoding.md R66). -/

namespace Sys2Proof

/-- An instruction of Pullet16 (30_encoding.md R71; the five NOP rows are the one `NOP` of that rule). -/
inductive Instr where
  | ban (ind : Bool) (af : Addr)
  | sub (ind : Bool) (af : Addr)
  | stc (ind : Bool) (af : Addr)
  | and (ind : Bool) (af : Addr)
  | add (ind : Bool) (af : Addr)
  | ld (ind : Bool) (af : Addr)
  | br (ind : Bool) (af : Addr)
  | rd
  | stp
  | wrt
  | nop000
  | nop100
  | nop101
  | nop110
  | nop111
  deriving DecidableEq, Repr

end Sys2Proof
end

