-- ==== Sys2Proof/WellFormed.lean ====
section
/-! DEFINITION. Static checks. Every operand of an instruction is in range by its type; what is left to check is that the
configured OPMAP gives the instruction's opcode a code (without one no word decodes to it as that opcode), and that an OPMAP meets the
constraint of 30_encoding.md R64. -/

namespace Sys2Proof

/-- The primary opcode an instruction belongs to (R64). -/
def Instr.primary : Instr → Primary
  | .ban _ _ => .addressed .ban
  | .sub _ _ => .addressed .sub
  | .stc _ _ => .addressed .stc
  | .and _ _ => .addressed .and
  | .add _ _ => .addressed .add
  | .ld _ _ => .addressed .ld
  | .br _ _ => .addressed .br
  | .rd => .extended
  | .stp => .extended
  | .wrt => .extended
  | .nop000 => .extended
  | .nop100 => .extended
  | .nop101 => .extended
  | .nop110 => .extended
  | .nop111 => .extended

/-- Does the OPMAP give some code to this primary opcode? -/
def Config.assigns (c : Config) (p : Primary) : Bool :=
  allCodes.any fun k => c.opMap k == some p

/-- An instruction is well formed for a configuration when its opcode has a code there. -/
def Instr.wellFormed (c : Config) (i : Instr) : Bool := c.assigns i.primary

/-- The constraint R64 puts on any complete OPMAP: eight codes, seven of them the seven addressed opcodes and one the
extended code; so each of the eight has a code (and, eight codes being all there are, exactly one). -/
def Config.wellFormed (c : Config) : Bool :=
  [Primary.addressed .ban, .addressed .sub, .addressed .stc, .addressed .and, .addressed .add, .addressed .ld,
    .addressed .br, .extended].all c.assigns

end Sys2Proof
end

