-- ==== Sys2Proof/Decode.lean ====
section
/-! DEFINITION. The parameter values of this hardware, the field accessors of a word, the decoder (30_encoding.md R71)
and the encoder (R73). Decoding is total: every 16-bit word is an instruction (R67); only an empty stream of words is
rejected, by name. -/

namespace Sys2Proof

/-- OPMAP (R5, R64, D2). PRESUMED: the spec itself takes the numbers from general knowledge (G1). Log 8, unsafe. -/
def pullet16OpMap (k : Code) : Option Primary :=
  if k = 0b000#3 then some (.addressed .ban)
  else if k = 0b001#3 then some (.addressed .sub)
  else if k = 0b010#3 then some (.addressed .stc)
  else if k = 0b011#3 then some (.addressed .and)
  else if k = 0b100#3 then some (.addressed .add)
  else if k = 0b101#3 then some (.addressed .ld)
  else if k = 0b110#3 then some (.addressed .br)
  else some .extended

/-- The parameter values this hardware takes (R5): KMAXMEMORY 4095 (D6, log 10), TCLIM 32768 (D17, log 9), LAYOUT of D1
and OPMAP of D2 (log 8). -/
def pullet16 : Config where
  kMaxMemory := 4095
  tcLim := 32768
  layout := .mnFirst
  opMap := pullet16OpMap

/-- The mnemonic field mn(w) (R8, R60). -/
def fieldMn (l : Layout) (w : Word) : Code :=
  match l with
  | .mnFirst => w.extractLsb' 13 3
  | .indFirst => w.extractLsb' 12 3

/-- The indirection flag ind(w) (R8, R60). -/
def fieldInd (l : Layout) (w : Word) : Bool :=
  match l with
  | .mnFirst => w.getLsbD 12
  | .indFirst => w.getLsbD 15

/-- The address field af(w) = w[11:0] (R8, R61). -/
def fieldAf (w : Word) : Addr := w.extractLsb' 0 12

/-- The sub-code sub3(w) = w[2:0], the low three bits of the address field (R8, R61). -/
def fieldSub3 (w : Word) : Code := w.extractLsb' 0 3

/-- The addressed instruction of an opcode with its two operands (R71). -/
def addressedInstr (op : AddrOp) (ind : Bool) (af : Addr) : Instr :=
  match op with
  | .ban => .ban ind af
  | .sub => .sub ind af
  | .stc => .stc ind af
  | .and => .and ind af
  | .add => .add ind af
  | .ld => .ld ind af
  | .br => .br ind af

/-- SUBMAP: the extended instruction of a sub-code (R65). -/
def extendedInstr (sub : Code) : Instr :=
  if sub = 0b000#3 then .nop000
  else if sub = 0b001#3 then .rd
  else if sub = 0b010#3 then .stp
  else if sub = 0b011#3 then .wrt
  else if sub = 0b100#3 then .nop100
  else if sub = 0b101#3 then .nop101
  else if sub = 0b110#3 then .nop110
  else .nop111

/-- The decoder for any configuration (R71). A code the OPMAP does not assign is a no-op (R135); which of the five no-op
constructors stands for it is a DESIGN CHOICE without effect (log 12). -/
def decodeWith (c : Config) (w : Word) : Instr :=
  match c.opMap (fieldMn c.layout w) with
  | some (.addressed op) => addressedInstr op (fieldInd c.layout w) (fieldAf w)
  | some .extended => extendedInstr (fieldSub3 w)
  | none => .nop000

/-- The decoder of this hardware. -/
def decode (w : Word) : Instr := decodeWith pullet16 w

/-- Why a stream of words gives no instruction. No word is illegal (R67). -/
inductive DecodeError where
  /-- The stream holds no word at all. -/
  | emptyStream
  deriving DecidableEq, Repr

/-- Reads one instruction from a stream of words and gives the rest of the stream: every instruction is exactly one word
(R62). -/
def decodeStream : List Word → Except DecodeError (Instr × List Word)
  | [] => .error .emptyStream
  | w :: rest => .ok (decode w, rest)

/-- The instruction the decoder reads from a word given as a number, bits at or above `nbits` being 0; a stream of one
word holds at most 16 bits (R60). -/
def decodeTableWord (nbits w : Nat) : Option Instr :=
  if nbits ≤ 16 then
    match decodeStream [BitVec.ofNat 16 (w % 2 ^ nbits)] with
    | .ok (i, _) => some i
    | .error _ => none
  else none

/-- Is the instruction one of the five no-op rows, to which R73 gives no encoding? -/
def Instr.isNoOp : Instr → Bool
  | .nop000 | .nop100 | .nop101 | .nop110 | .nop111 => true
  | .ban _ _ | .sub _ _ | .stc _ _ | .and _ _ | .add _ _ | .ld _ _ | .br _ _ | .rd | .stp | .wrt => false

/-- Bit ind of an instruction's word; 0 for the extended ones (canonical form, R66, R71). -/
def Instr.indField : Instr → Bool
  | .ban ind _ | .sub ind _ | .stc ind _ | .and ind _ | .add ind _ | .ld ind _ | .br ind _ => ind
  | .rd | .stp | .wrt | .nop000 | .nop100 | .nop101 | .nop110 | .nop111 => false

/-- Bits 11:0 of an instruction's word; for the extended ones the sub-code below zeros (R65, R66, R71). -/
def Instr.afField : Instr → Addr
  | .ban _ af | .sub _ af | .stc _ af | .and _ af | .add _ af | .ld _ af | .br _ af => af
  | .nop000 => 0b000#12
  | .rd => 0b001#12
  | .stp => 0b010#12
  | .wrt => 0b011#12
  | .nop100 => 0b100#12
  | .nop101 => 0b101#12
  | .nop110 => 0b110#12
  | .nop111 => 0b111#12

/-- The word with the given fields (R60). -/
def assemble (l : Layout) (mn : Code) (ind : Bool) (af : Addr) : Word :=
  match l with
  | .mnFirst => mn ++ BitVec.ofBool ind ++ af
  | .indFirst => BitVec.ofBool ind ++ mn ++ af

/-- OPMAP^-1 (R73): the code the OPMAP gives to a primary opcode, if any. Under an OPMAP that meets R64 there is exactly
one; under one that gives an opcode several codes, this is the least of them (DESIGN CHOICE, log 13). -/
def Config.codeOf (c : Config) (p : Primary) : Option Code :=
  allCodes.find? fun k => c.opMap k == some p

/-- The word of an instruction's row with every ignored bit zero, for any configuration and all fifteen rows (R71); a
no-op's is the word a program writes with DW (R72). None when the OPMAP gives the opcode no code. The model's own function
where it goes beyond R73, which gives the no-op no encoding (log 13). -/
def rowWordWith (c : Config) (i : Instr) : Option Word :=
  (c.codeOf i.primary).map fun mn => assemble c.layout mn i.indField i.afField

/-- Enc for any configuration (R73): the ten opcodes have an encoding, the no-ops have none. -/
def encodeWith (c : Config) (i : Instr) : Option Word := if i.isNoOp then none else rowWordWith c i

/-- The primary codes of this hardware, written from the table of R64 on their own. -/
def primaryCode : Primary → Code
  | .addressed .ban => 0b000#3
  | .addressed .sub => 0b001#3
  | .addressed .stc => 0b010#3
  | .addressed .and => 0b011#3
  | .addressed .add => 0b100#3
  | .addressed .ld => 0b101#3
  | .addressed .br => 0b110#3
  | .extended => 0b111#3

/-- The word of an instruction's row on this hardware, ignored bits zero (R71; see `rowWordWith`, log 13). -/
def rowWord (i : Instr) : Word := assemble .mnFirst (primaryCode i.primary) i.indField i.afField

/-- Enc of this hardware (R73): the canonical word of each of the ten opcodes; the no-ops have none. -/
def encode (i : Instr) : Option Word := if i.isNoOp then none else some (rowWord i)

end Sys2Proof
end

