-- ==== Sys2Proof/Machine/Flags.lean ====
section
/-! DEFINITION. Signed views. The machine has no flags (10_state.md R27); what takes their place is the two's-complement
view of a pattern, computed on each use and never stored (00_scope.md R9), and its sign, which BAN tests. -/

namespace Sys2Proof.Machine

/-- tc16 for any threshold TCLIM (R9): a pattern above it counts as itself minus 65536. -/
def tc16 (c : Config) (v : Word) : Int :=
  if v.toNat ≤ c.tcLim then (v.toNat : Int) else (v.toNat : Int) - 65536

/-- enc16(s) = s mod 65536 (R10). -/
def enc16 (s : Int) : Word := BitVec.ofInt 16 s

/-- The test of BAN: the signed view is strictly negative (43_branch.md R121). -/
def isNegative (c : Config) (v : Word) : Bool := decide (tc16 c v < 0)

end Sys2Proof.Machine
end

