-- ==== Sys2Proof/Machine/State.lean ====
section
/-! DEFINITION. The state of CORE as plain data (10_state.md R20), the reasons a step can stop, and the state after reset
(R34). -/

namespace Sys2Proof.Machine

/-- The four causes of a fatal condition (00_scope.md R5, 60_exceptions.md R140). -/
inductive Cause where
  | addressOutOfBounds
  | inputExhausted
  | pcOutOfRange
  | unloadedAccess
  deriving DecidableEq, Repr

/-- The run state RUN (10_state.md R28). `info` is the location or the pc a rule names, or none (R15, R140). -/
inductive RunState where
  | running
  | halted
  | fatal (cause : Cause) (info : Option Nat)
  deriving DecidableEq, Repr

/-- An item of the input sequence IN (20_memory.md R52). -/
inductive InItem where
  | val (n : Int)
  | malformed
  deriving DecidableEq, Repr

/-- A record of the output sequence OUT (20_memory.md R54). -/
structure OutRecord where
  value : Int
  pattern : Word
  deriving DecidableEq, Repr

/-- MEM and MEMSIZE (10_state.md R31). Words exist at addresses 0..size-1. `cells` lists (address, word) pairs, addresses
strictly rising; a word that is 0x0000 is not listed, so that equal memories are equal data (log 1, log 2). -/
structure Memory where
  size : Nat
  cells : List (Nat × Word)
  deriving DecidableEq, Repr

/-- The whole state (R20). MEMSIZE and IN are constants of a run that the step needs (R21, log 3); `draws` is the model's
own counter of free values (log 7). -/
structure State where
  pc : Word
  acc : Word
  run : RunState
  mem : Memory
  input : List InItem
  inPos : Nat
  out : List OutRecord
  draws : Nat
  deriving DecidableEq, Repr

/-- Why the machine answers no next state. The spec's fatal conditions are NOT among these: they are next states with
RUN = FATAL (R148). -/
inductive Fault where
  /-- Raised by `step` alone when RUN is HALTED: "the machine has no step" (R84). Safe. -/
  | halted
  /-- Raised by `step` alone when RUN is FATAL: "the machine takes no further step" (R149). Safe. -/
  | fatalEnd (cause : Cause) (info : Option Nat)
  /-- Raised by a meaning that would read or write a word at an address at or above MEMSIZE, where MemRead and MemWrite
  are not defined (R13). No step raises it (R86 (d)); only a meaning applied to a state with PC at or above MEMSIZE can.
  Safe (log 6). -/
  | noWord (a : Nat)
  deriving DecidableEq, Repr

/-- Why an instruction has no meaning. Every instruction of the table has one. -/
inductive Refusal where
  /-- Raised by `exec` for an instruction without a meaning; no arm does. Safe. -/
  | notModelled (mnemonic : String)
  deriving DecidableEq, Repr

/-- What a meaning and a step answer. -/
abbrev Result := Host.Outcome State Fault Refusal

/-- What the step finds at PC (40_fetch_decode_resolve.md R80). -/
inductive Fetched where
  /-- PC > KMAXMEMORY (R81). -/
  | beyondMax
  /-- PC at or above MEMSIZE: the run is over. -/
  | pastEnd
  /-- The word at PC. -/
  | word (w : Word)
  deriving DecidableEq, Repr

/-- The state right after reset (R34) with nothing loaded: MEM0 and IN are arguments the host chooses (R162), here both
empty (log 4). `State.boot` is the same state for any MEM0 and IN. -/
def State.reset : State where
  pc := 0#16
  acc := 0#16
  run := .running
  mem := { size := 0, cells := [] }
  input := []
  inPos := 0
  out := []
  draws := 0

end Sys2Proof.Machine
end

