-- ==== Sys2Proof/Machine/Ops.lean ====
section
/-! DEFINITION. The named operations every meaning is built from: writing one piece of state, memory words, the input and
output ports, fetch, advancing PC, halting, raising a fatal condition, and the reset that alone leaves a fatal end. -/

namespace Sys2Proof.Machine

/-! ### One piece of state at a time -/

def State.setPc (s : State) (v : Word) : State := { s with pc := v }
def State.setAcc (s : State) (v : Word) : State := { s with acc := v }
def State.setRun (s : State) (r : RunState) : State := { s with run := r }
def State.setMem (s : State) (m : Memory) : State := { s with mem := m }

/-! ### Memory words (00_scope.md R13) -/

/-- The word listed for an address, or 0x0000, what an unlisted address below MEMSIZE holds (log 2). -/
def lookupCell (a : Nat) : List (Nat × Word) → Word
  | [] => 0#16
  | (b, v) :: rest => if b = a then v else lookupCell a rest

/-- The listing without an address. -/
def eraseCell (a : Nat) : List (Nat × Word) → List (Nat × Word)
  | [] => []
  | (b, v) :: rest => if b = a then eraseCell a rest else (b, v) :: eraseCell a rest

/-- The listing with a new entry put in its place by address. -/
def insertCell (a : Nat) (v : Word) : List (Nat × Word) → List (Nat × Word)
  | [] => [(a, v)]
  | (b, u) :: rest => if a < b then (a, v) :: (b, u) :: rest else (b, u) :: insertCell a v rest

/-- MemRead(a, 16): the word at `a`; no word exists at or above MEMSIZE, not zero and not any value (R13, R56). -/
def Memory.read (m : Memory) (a : Nat) : Option Word :=
  if a < m.size then some (lookupCell a m.cells) else none

/-- MemWrite(a, 16, v): the whole word at `a` replaced; it cannot create a word (R13, R44, R111). -/
def Memory.write (m : Memory) (a : Nat) (v : Word) : Option Memory :=
  if a < m.size then
    some { m with cells := if v = 0#16 then eraseCell a m.cells else insertCell a v (eraseCell a m.cells) }
  else none

/-- The listing's addresses rise strictly from `lo`, stay below `size`, and no word is 0x0000. -/
def cellsWf (size : Nat) : Nat → List (Nat × Word) → Bool
  | _, [] => true
  | lo, (a, v) :: rest => decide (lo ≤ a) && decide (a < size) && decide (v ≠ 0#16) && cellsWf size (a + 1) rest

/-- The canonical form of a memory: equal contents are then equal data (log 2). -/
def Memory.wf (m : Memory) : Bool := cellsWf m.size 0 m.cells

/-! ### The ports (20_memory.md R52, R54) -/

/-- The item IN[INPOS], if INPOS is below the length of IN: InAvail() and the item InNext() returns (R52). -/
def State.nextItem (s : State) : Option InItem := s.input[s.inPos]?

/-- The cursor movement of InNext() (R52). -/
def State.consumeItem (s : State) : State := { s with inPos := s.inPos + 1 }

/-- Out(s, p): one record appended (R54). -/
def State.emit (s : State) (r : OutRecord) : State := { s with out := s.out ++ [r] }

/-- The next free value is used up (R131, log 7). -/
def State.countDraw (s : State) : State := { s with draws := s.draws + 1 }

/-- The value range of an item: n in -65535..+65535 (R52). -/
def InItem.wf : InItem → Bool
  | .val n => decide (-65535 ≤ n) && decide (n ≤ 65535)
  | .malformed => true

/-! ### The step's ends -/

/-- What is at PC (40_fetch_decode_resolve.md R80, R81): the range test against KMAXMEMORY comes first. -/
def fetch (c : Config) (s : State) : Fetched :=
  if c.kMaxMemory < s.pc.toNat then .beyondMax
  else match s.mem.read s.pc.toNat with
    | none => .pastEnd
    | some w => .word w

/-- The end of an instruction that did not assign PC: PC + 1 (R80, R82). -/
def advance (s : State) : Result := .next (s.setPc (s.pc + 1#16))

/-- RUN <- HALTED and nothing else (R80, R133). -/
def halt (s : State) : Result := .next (s.setRun .halted)

/-- `raise Fatal(cause, info)` (R15, R148): RUN <- FATAL(cause, info) and nothing else changes; no handler, no saved
state, no vector. -/
def raise (cause : Cause) (info : Option Nat) (s : State) : Result := .next (s.setRun (.fatal cause info))

/-- Reset of a machine in any state (70_reset_and_hazards.md R160), the only way out of HALTED and FATAL: there is no
return from a fatal condition (R149). MEM, MEMSIZE and IN are left; so is the free-value counter (log 15). -/
def State.restart (s : State) : State :=
  { s with pc := 0#16, acc := 0#16, run := .running, inPos := 0, out := [] }

/-- The number of a cause (R140). No instruction can read it. -/
def Cause.number : Cause → Nat
  | .addressOutOfBounds => 1
  | .inputExhausted => 2
  | .pcOutOfRange => 3
  | .unloadedAccess => 4

end Sys2Proof.Machine
end

