-- ==== Sys2Proof/Machine/Operands.lean ====
section
/-! DEFINITION. How an addressed instruction finds its location and its operand (40_fetch_decode_resolve.md): Resolve
(R85), CheckAccess (R88), and the two together in the order of R90. The two addressing modes of 42_load_store.md R112 are
both in Resolve. -/

namespace Sys2Proof.Machine

/-- Resolve(i, a) (R85). A field above PC is location 0; direct gives the field; indirect gives bits 11:0 of the word at
the field. `none`: the pointer word does not exist, which no fetched instruction meets (R86 (d), log 6). -/
def resolve (ind : Bool) (af : Addr) (s : State) : Option Addr :=
  if s.pc.toNat < af.toNat then some 0#12
  else match ind with
    | false => some af
    | true => (s.mem.read af.toNat).map fieldAf

/-- CheckAccess(loc) (R88): the cause it raises, or none when it returns. -/
def checkAccess (c : Config) (size loc : Nat) : Option Cause :=
  if ¬ (0 < loc ∧ loc ≤ c.kMaxMemory) then some .addressOutOfBounds
  else if size ≤ loc then some .unloadedAccess
  else none

/-- Steps (3) and (4) of R90: resolve, validate, and go on with the location `k` needs. -/
def withLocation (c : Config) (ind : Bool) (af : Addr) (s : State) (k : Addr → Result) : Result :=
  match resolve ind af s with
  | none => .fault (.noWord af.toNat)
  | some loc =>
    match checkAccess c s.mem.size loc.toNat with
    | some cause => raise cause (some loc.toNat) s
    | none => k loc

/-- Steps (3) to (5) of R90: go on with the operand word. -/
def withOperand (c : Config) (ind : Bool) (af : Addr) (s : State) (k : Word → Result) : Result :=
  withLocation c ind af s fun loc =>
    match s.mem.read loc.toNat with
    | none => .fault (.noWord loc.toNat)
    | some m => k m

/-- PC <- Resolve(i, a) (R120): the location is not validated (R89 (c)) and PC is not incremented (R82). -/
def branchTo (ind : Bool) (af : Addr) (s : State) : Result :=
  match resolve ind af s with
  | none => .fault (.noWord af.toNat)
  | some loc => .next (s.setPc (loc.setWidth 16))

end Sys2Proof.Machine
end

