-- ==== Sys2Proof/Machine/Arith.lean ====
section
/-! DEFINITION. ADD, AND, SUB (41_arithmetic_logic.md). -/

namespace Sys2Proof.Machine

/-- ADD (R100): ACC <- enc16(tc16(ACC) + tc16(m)), m the whole word. -/
def execAdd (ind : Bool) (af : Addr) (s : State) : Result :=
  withOperand pullet16 ind af s fun m => advance (s.setAcc (enc16 (tc16 pullet16 s.acc + tc16 pullet16 m)))

/-- AND (R101): ACC <- ACC AND m, no conversion. -/
def execAnd (ind : Bool) (af : Addr) (s : State) : Result :=
  withOperand pullet16 ind af s fun m => advance (s.setAcc (s.acc &&& m))

/-- SUB (R102): ACC <- enc16(tc16(ACC) - af(m)), the subtrahend only the 12-bit field. -/
def execSub (ind : Bool) (af : Addr) (s : State) : Result :=
  withOperand pullet16 ind af s fun m => advance (s.setAcc (enc16 (tc16 pullet16 s.acc - ((fieldAf m).toNat : Int))))

end Sys2Proof.Machine
end

