-- ==== Sys2Proof/Machine/Branch.lean ====
section
/-! DEFINITION. BR and BAN (43_branch.md). -/

namespace Sys2Proof.Machine

/-- BR (R120). -/
def execBr (ind : Bool) (af : Addr) (s : State) : Result := branchTo ind af s

/-- BAN (R121): taken exactly when tc16(ACC) < 0; when not taken nothing is resolved (R87). -/
def execBan (ind : Bool) (af : Addr) (s : State) : Result :=
  if isNegative pullet16 s.acc then branchTo ind af s else advance s

end Sys2Proof.Machine
end

