-- ==== Sys2Proof/Machine/Extended.lean ====
section
/-! DEFINITION. RD, WRT, STP and the five no-op rows (44_extended_io_stop.md). None has an operand in the word (R130). -/

namespace Sys2Proof.Machine

/-- RD (R131). No item left: InputExhausted, nothing consumed. Val(n): ACC <- enc16(n). Malformed: the item is consumed
and ACC takes a FREE VALUE (log 7). -/
def execRd (s : State) : Result :=
  match s.nextItem with
  | none => raise .inputExhausted none s
  | some (.val n) => advance (s.consumeItem.setAcc (enc16 n))
  | some .malformed => advance (s.consumeItem.countDraw.setAcc (Config.freeWord s.draws))

/-- WRT (R132): Out(tc16(ACC), ACC). -/
def execWrt (s : State) : Result := advance (s.emit { value := tc16 pullet16 s.acc, pattern := s.acc })

/-- STP (R133): RUN <- HALTED; PC keeps the address of this STP (D5, log 11). -/
def execStp (s : State) : Result := halt s

/-- The no-op of sub-code 000 (R134), and of an unrecognised primary code (R135). -/
def execNop000 (s : State) : Result := advance s

/-- The no-op of sub-code 100 (R134). -/
def execNop100 (s : State) : Result := advance s

/-- The no-op of sub-code 101 (R134). -/
def execNop101 (s : State) : Result := advance s

/-- The no-op of sub-code 110 (R134). -/
def execNop110 (s : State) : Result := advance s

/-- The no-op of sub-code 111 (R134). -/
def execNop111 (s : State) : Result := advance s

end Sys2Proof.Machine
end

