-- ==== Sys2Proof/Machine/LoadStore.lean ====
section
/-! DEFINITION. LD and STC (42_load_store.md). -/

namespace Sys2Proof.Machine

/-- LD (R110): ACC <- zext_16(af(m)). -/
def execLd (ind : Bool) (af : Addr) (s : State) : Result :=
  withOperand pullet16 ind af s fun m => advance (s.setAcc ((fieldAf m).setWidth 16))

/-- The store of STC and then the clearing of ACC (R90 (7), (8)): the pattern enc16(tc16(ACC)) replaces the word. -/
def storeAndClear (s : State) (loc : Addr) : Result :=
  match s.mem.write loc.toNat (enc16 (tc16 pullet16 s.acc)) with
  | none => .fault (.noWord loc.toNat)
  | some m => advance ((s.setMem m).setAcc 0#16)

/-- STC (R111): MEM[loc] <- enc16(tc16(ACC)), then ACC <- 0. -/
def execStc (ind : Bool) (af : Addr) (s : State) : Result :=
  withLocation pullet16 ind af s (storeAndClear s)

end Sys2Proof.Machine
end

