-- ==== Sys2Proof/Machine/Dispatch.lean ====
section
/-! DEFINITION. Execute(t), one arm per instruction (40_fetch_decode_resolve.md R83). -/

namespace Sys2Proof.Machine

def exec (i : Instr) (s : State) : Host.Outcome State Fault Refusal :=
  match i with
  | .ban ind af => Sys2Proof.Machine.execBan ind af s
  | .sub ind af => Sys2Proof.Machine.execSub ind af s
  | .stc ind af => Sys2Proof.Machine.execStc ind af s
  | .and ind af => Sys2Proof.Machine.execAnd ind af s
  | .add ind af => Sys2Proof.Machine.execAdd ind af s
  | .ld ind af => Sys2Proof.Machine.execLd ind af s
  | .br ind af => Sys2Proof.Machine.execBr ind af s
  | .rd => Sys2Proof.Machine.execRd s
  | .stp => Sys2Proof.Machine.execStp s
  | .wrt => Sys2Proof.Machine.execWrt s
  | .nop000 => Sys2Proof.Machine.execNop000 s
  | .nop100 => Sys2Proof.Machine.execNop100 s
  | .nop101 => Sys2Proof.Machine.execNop101 s
  | .nop110 => Sys2Proof.Machine.execNop110 s
  | .nop111 => Sys2Proof.Machine.execNop111 s

end Sys2Proof.Machine
end

