-- ==== Sys2Proof/Machine/Step.lean ====
section
/-! DEFINITION. One step of the machine (40_fetch_decode_resolve.md R80), and the state in which the next step runs a
given word. -/

namespace Sys2Proof.Machine

/-- Step() (R80): only a RUNNING machine has a step (R84); PC is tested against KMAXMEMORY (R81), then against MEMSIZE;
then the word at PC is executed. The increment of PC is part of each meaning (R82, log 17). -/
def step (s : State) : Host.Outcome State Fault Refusal :=
  match s.run with
  | .halted => .fault .halted
  | .fatal cause info => .fault (.fatalEnd cause info)
  | .running =>
    match fetch pullet16 s with
    | .beyondMax => raise .pcOutOfRange (some s.pc.toNat) s
    | .pastEnd => halt s
    | .word w => exec (decode w) s

/-- `s` with the word `w` (bits at or above `nbits` zero) loaded where the next step fetches: RUN is RUNNING, MEMSIZE
reaches past PC, and the word stands at PC (at 0 where no word can stand at PC). It stands for the host's load (R163,
log 16). -/
def State.withFetchWord (s : State) (nbits w : Nat) : State :=
  let pc : Word := if s.pc.toNat < pullet16.kMaxMemory then s.pc else 0#16
  let room : Memory := { s.mem with size := max s.mem.size (pc.toNat + 1) }
  let mem : Memory := (room.write pc.toNat (BitVec.ofNat 16 (w % 2 ^ nbits))).getD room
  { s with pc := pc, run := .running, mem := mem }

end Sys2Proof.Machine
end

