-- ==== Sys2Proof/Machine/Boot.lean ====
section
/-! DEFINITION. What the host does before a run (70_reset_and_hazards.md R163) and the meaning of its input tokens
(20_memory.md R53). Surrounding software by 00_scope.md R4, given here because the spec gives its values. -/

namespace Sys2Proof.Machine

/-- The listing of the words loaded at addresses `k` and up. -/
def loadCells (k : Nat) : List Word → List (Nat × Word)
  | [] => []
  | w :: rest => if w = 0#16 then loadCells (k + 1) rest else (k, w) :: loadCells (k + 1) rest

/-- The loader's effect: MEM[k] is the k-th word, MEMSIZE their number (R46, R163). -/
def Memory.load (words : List Word) : Memory := { size := words.length, cells := loadCells 0 words }

/-- The state after reset with MEM0 and IN as the host chose them (10_state.md R34, R163). -/
def State.boot (mem0 : List Word) (input : List InItem) : State :=
  { State.reset with mem := Memory.load mem0, input := input }

/-- The value 0..15 of an uppercase hexadecimal digit (R53). -/
def hexDigit (ch : Char) : Option Nat :=
  if '0' ≤ ch ∧ ch ≤ '9' then some (ch.toNat - '0'.toNat)
  else if 'A' ≤ ch ∧ ch ≤ 'F' then some (ch.toNat - 'A'.toNat + 10)
  else none

/-- The sign of a token (R53). -/
def tokenSign (ch : Char) : Option Int :=
  if ch = '+' then some 1 else if ch = '-' then some (-1) else none

/-- The item an input token stands for: a sign and four uppercase hexadecimal digits; anything else is Malformed
(R53). -/
def itemOfToken : List Char → InItem
  | [sg, c3, c2, c1, c0] =>
    match tokenSign sg, hexDigit c3, hexDigit c2, hexDigit c1, hexDigit c0 with
    | some sgn, some h3, some h2, some h1, some h0 =>
      .val (sgn * ((4096 * h3 + 256 * h2 + 16 * h1 + h0 : Nat) : Int))
    | _, _, _, _, _ => .malformed
  | _ => .malformed

end Sys2Proof.Machine
end

