-- ==== Sys2Proof/Safety.lean ====
section
/-! DEFINITION. What claims are stated in: the invariant of the machine, runs, and the ends of a run
(60_exceptions.md R150, R151, 70_reset_and_hazards.md R165). -/

namespace Sys2Proof.Machine

/-- The invariant of every state a run reaches: MEM is in canonical form and within KMAXMEMORY (00_scope.md R5), PC is in
0..4095 (10_state.md R26), INPOS is in 0..length(IN) (R20), every input item is in range (20_memory.md R52) and every
output record is a pattern with its signed view (R54). -/
structure State.Inv (s : State) : Prop where
  mem_wf : s.mem.wf = true
  mem_size : s.mem.size ≤ pullet16.kMaxMemory
  pc_range : s.pc.toNat ≤ pullet16.kMaxMemory
  in_pos : s.inPos ≤ s.input.length
  in_items : ∀ it ∈ s.input, it.wf = true
  out_records : ∀ r ∈ s.out, r.value = tc16 pullet16 r.pattern

/-- The state after at most `k` steps, staying where the run ends (R84). -/
def runFor : Nat → State → State
  | 0, s => s
  | k + 1, s =>
    match step s with
    | .next t => runFor k t
    | .fault _ => s
    | .refused _ => s

/-- The run is over (R165). -/
def State.ended (s : State) : Prop := s.run ≠ .running

/-- The run ended normally (R151). -/
def State.endedNormally (s : State) : Prop := s.run = .halted

/-- Whether the run status tells the host to exit with a non-zero status: true for FATAL, by the source's contract (R150).
False means that the model promises no non-zero status. For HALTED that is a DESIGN CHOICE (log 23): the source is silent
on the status of a normal halt, and D26 leaves its number outside CORE; the model does not say that the status is zero. -/
def exitsNonZero (r : RunState) : Bool :=
  match r with
  | .fatal _ _ => true
  | .running => false
  | .halted => false

/-- A run that ends normally and is never FATAL, the first thing a claim about a program proves (R150). -/
def State.SafeRun (s : State) : Prop := ∃ k, (runFor k s).endedNormally

/-- A hang: the run never ends (R152). -/
def State.Hangs (s : State) : Prop := ∀ k, ¬ (runFor k s).ended

/-- The operands of the five instructions that access memory at the resolved location (R88, R141). -/
def dataOperands : Instr → Option (Bool × Addr)
  | .add ind af | .and ind af | .sub ind af | .ld ind af | .stc ind af => some (ind, af)
  | .ban _ _ | .br _ _ | .rd | .stp | .wrt | .nop000 | .nop100 | .nop101 | .nop110 | .nop111 => none

/-- What CheckAccess makes of one data instruction at the location Resolve gives (R88): location 0 raises
AddressOutOfBounds, a location without a loaded word raises UnloadedAccess, and nothing but RUN changes. -/
def AccessIsValidated (i : Bool → Addr → Instr) : Prop :=
  ∀ (ind : Bool) (af loc : Addr) (s : State), resolve ind af s = some loc →
    (loc = 0#12 → exec (i ind af) s = .next { s with run := .fatal .addressOutOfBounds (some 0) }) ∧
    (loc ≠ 0#12 → s.mem.size ≤ loc.toNat →
      exec (i ind af) s = .next { s with run := .fatal .unloadedAccess (some loc.toNat) })

end Sys2Proof.Machine
end

