-- ==== Sys2Proof/Certificates/Slice0/Obligations.lean ====
section
/-! DEFINITION. The statements for the provers. Each docstring names the rule or section of spec/ it formalises; where a
clause rests on a decision or an inference the spec marks as its own, or on a log entry, it says so. -/

open Sys2Proof Sys2Proof.Machine

/-! ### Numbers -/

/-- R10: enc16(s) = s mod 65536, and encoding the signed view of a pattern gives the pattern back. The second clause is
said for every TCLIM, so it does not rest on D17. -/
def Obligations.EncodingReducesAndRoundTrips : Prop :=
  (∀ n : Int, ((enc16 n).toNat : Int) = n % 65536) ∧
  (∀ (c : Config) (v : Word), enc16 (tc16 c v) = v)

/-- R9 and the table of R124, with the threshold 32768 the spec follows literally (D17, C7; log 9): the pattern 0x8000
counts as +32768, and exactly 0x8001..0xFFFF are negative. -/
def Obligations.SignedViewThreshold : Prop :=
  ∀ v : Word,
    (v.toNat ≤ 32768 → tc16 pullet16 v = (v.toNat : Int)) ∧
    (32768 < v.toNat → tc16 pullet16 v = (v.toNat : Int) - 65536) ∧
    -32767 ≤ tc16 pullet16 v ∧ tc16 pullet16 v ≤ 32768 ∧
    (isNegative pullet16 v = true ↔ 0x8001 ≤ v.toNat)

/-- R11, an inference of the spec: where a result is truncated to 16 bits it does not matter whether the operands went
through the signed view, for any TCLIM. -/
def Obligations.TruncationForgetsTheView : Prop :=
  ∀ (c : Config) (v w : Word) (k : Int),
    ((enc16 (tc16 c v + tc16 c w)).toNat : Int) = ((v.toNat : Int) + (w.toNat : Int)) % 65536 ∧
    ((enc16 (tc16 c v - k)).toNat : Int) = ((v.toNat : Int) - k) % 65536

/-! ### Encoding -/

/-- R73, an inference of the spec: decoding the encoding of an instruction gives the instruction back, for every OPMAP
(partial ones too), both field orders and every operand. The first clause says the same of the row words of all fifteen
rows, the no-ops' included, which R73 does not encode (the model's, log 13). -/
def Obligations.DecodeOfEncodeEveryConfiguration : Prop :=
  (∀ (c : Config) (i : Instr) (w : Word), rowWordWith c i = some w → decodeWith c w = i) ∧
  (∀ (c : Config) (i : Instr) (w : Word), encodeWith c i = some w → decodeWith c w = i)

/-- Which instructions have an encoding: exactly the well-formed ones that are no no-op (R73), and a row word, exactly the
well-formed ones (the model's, log 13). On this hardware both are the words written from the table of R64 (D2, log 8). -/
def Obligations.WellFormedIsEncodable : Prop :=
  (∀ (c : Config) (i : Instr), (∃ w, encodeWith c i = some w) ↔
    i.wellFormed c = true ∧ i ∉ [Instr.nop000, .nop100, .nop101, .nop110, .nop111]) ∧
  (∀ (c : Config) (i : Instr), (∃ w, rowWordWith c i = some w) ↔ i.wellFormed c = true) ∧
  (∀ i : Instr, encodeWith pullet16 i = encode i ∧ rowWordWith pullet16 i = some (rowWord i))

/-- R73, an inference of the spec: Enc(OP, i, n) = OPMAP^-1(OP) * 8192 + i * 4096 + n with the numbers of D2 (log 8), RD,
STP and WRT are 0xE001, 0xE002 and 0xE003, and the no-op has no encoding. -/
def Obligations.EncodingsHaveTheSpecValues : Prop :=
  (∀ (ind : Bool) (n : Addr),
    encode (.ban ind n) = some (BitVec.ofNat 16 (0 * 8192 + ind.toNat * 4096 + n.toNat)) ∧
    encode (.sub ind n) = some (BitVec.ofNat 16 (1 * 8192 + ind.toNat * 4096 + n.toNat)) ∧
    encode (.stc ind n) = some (BitVec.ofNat 16 (2 * 8192 + ind.toNat * 4096 + n.toNat)) ∧
    encode (.and ind n) = some (BitVec.ofNat 16 (3 * 8192 + ind.toNat * 4096 + n.toNat)) ∧
    encode (.add ind n) = some (BitVec.ofNat 16 (4 * 8192 + ind.toNat * 4096 + n.toNat)) ∧
    encode (.ld ind n) = some (BitVec.ofNat 16 (5 * 8192 + ind.toNat * 4096 + n.toNat)) ∧
    encode (.br ind n) = some (BitVec.ofNat 16 (6 * 8192 + ind.toNat * 4096 + n.toNat))) ∧
  encode .rd = some 0xE001#16 ∧ encode .stp = some 0xE002#16 ∧ encode .wrt = some 0xE003#16 ∧
  ∀ i ∈ [Instr.nop000, .nop100, .nop101, .nop110, .nop111], encode i = none

/-- R73, the other direction, an inference of the spec: encoding what a word decodes to gives the word back exactly for the
words whose code is not the extended one, and the extended words with bits 12:3 zero and sub-code 001, 010 or 011 (D1, D2,
log 8). The second clause is about the model's row words, which the no-ops have too (log 13): they give back exactly the
words whose code is not the extended one and the extended words with bits 12:3 zero. -/
def Obligations.EncodeOfDecodeOnCanonicalWords : Prop :=
  (∀ w : Word, encode (decode w) = some w ↔
    w &&& 0xE000#16 ≠ 0xE000#16 ∨
    (w &&& 0x1FF8#16 = 0#16 ∧ (w &&& 7#16 = 1#16 ∨ w &&& 7#16 = 2#16 ∨ w &&& 7#16 = 3#16))) ∧
  (∀ w : Word, rowWord (decode w) = w ↔ (w &&& 0xE000#16 ≠ 0xE000#16 ∨ w &&& 0x1FF8#16 = 0#16))

/-- The match and mask table of R71, under D1, D2 and D16 (log 8): a word of a row is that row's instruction, with
ind = bit 12 and af = bits 11:0; bits 12:3 of the extended words are ignored. -/
def Obligations.RowsDecideTheInstruction : Prop :=
  ∀ w : Word,
    (w &&& 0xE000#16 = 0x0000#16 → decode w = .ban (w.getLsbD 12) (w.extractLsb' 0 12)) ∧
    (w &&& 0xE000#16 = 0x2000#16 → decode w = .sub (w.getLsbD 12) (w.extractLsb' 0 12)) ∧
    (w &&& 0xE000#16 = 0x4000#16 → decode w = .stc (w.getLsbD 12) (w.extractLsb' 0 12)) ∧
    (w &&& 0xE000#16 = 0x6000#16 → decode w = .and (w.getLsbD 12) (w.extractLsb' 0 12)) ∧
    (w &&& 0xE000#16 = 0x8000#16 → decode w = .add (w.getLsbD 12) (w.extractLsb' 0 12)) ∧
    (w &&& 0xE000#16 = 0xA000#16 → decode w = .ld (w.getLsbD 12) (w.extractLsb' 0 12)) ∧
    (w &&& 0xE000#16 = 0xC000#16 → decode w = .br (w.getLsbD 12) (w.extractLsb' 0 12)) ∧
    (w &&& 0xE007#16 = 0xE001#16 → decode w = .rd) ∧
    (w &&& 0xE007#16 = 0xE002#16 → decode w = .stp) ∧
    (w &&& 0xE007#16 = 0xE003#16 → decode w = .wrt) ∧
    (w &&& 0xE007#16 = 0xE000#16 → decode w = .nop000) ∧
    (w &&& 0xE007#16 = 0xE004#16 → decode w = .nop100) ∧
    (w &&& 0xE007#16 = 0xE005#16 → decode w = .nop101) ∧
    (w &&& 0xE007#16 = 0xE006#16 → decode w = .nop110) ∧
    (w &&& 0xE007#16 = 0xE007#16 → decode w = .nop111)

/-- R65: when the mnemonic code is the extended one, whatever code that is, the low three bits of the word select the
instruction: 001 RD, 010 STP, 011 WRT, and a no-op for 000, 100, 101, 110 and 111. -/
def Obligations.SubCodeSelectsTheExtendedInstruction : Prop :=
  ∀ (c : Config) (w : Word), c.opMap (fieldMn c.layout w) = some .extended →
    (w.toNat % 8 = 1 → decodeWith c w = .rd) ∧
    (w.toNat % 8 = 2 → decodeWith c w = .stp) ∧
    (w.toNat % 8 = 3 → decodeWith c w = .wrt) ∧
    (w.toNat % 8 = 0 → decodeWith c w = .nop000) ∧
    (w.toNat % 8 = 4 → decodeWith c w = .nop100) ∧
    (w.toNat % 8 = 5 → decodeWith c w = .nop101) ∧
    (w.toNat % 8 = 6 → decodeWith c w = .nop110) ∧
    (w.toNat % 8 = 7 → decodeWith c w = .nop111)

/-- R135 (D24): under a partial OPMAP, a word whose code is not assigned runs as a no-op: PC advances by one and nothing
else changes. Which no-op constructor stands for it is the model's choice (log 12). -/
def Obligations.UnrecognisedCodeIsANoOp : Prop :=
  ∀ (c : Config) (w : Word) (s : State), c.opMap (fieldMn c.layout w) = none →
    exec (decodeWith c w) s = .next { s with pc := s.pc + 1#16 }

/-- Words of section 2.1 of 95_test_vectors.md, one of each family at least (D1, D2; log 8). -/
def Obligations.SpecWordsDecode : Prop :=
  decode 0x1234#16 = .ban true 0x234#12 ∧ decode 0x3FFF#16 = .sub true 0xFFF#12 ∧
  decode 0x4006#16 = .stc false 6#12 ∧ decode 0x6004#16 = .and false 4#12 ∧
  decode 0x9ABC#16 = .add true 0xABC#12 ∧ decode 0xB005#16 = .ld true 5#12 ∧
  decode 0xC000#16 = .br false 0#12 ∧ decode 0xFFF9#16 = .rd ∧ decode 0xEFFA#16 = .stp ∧
  decode 0xFFFB#16 = .wrt ∧ decode 0xE008#16 = .nop000 ∧ decode 0xFFFF#16 = .nop111

/-! ### Resolution and validation -/

/-- R85: a field above PC resolves to 0 in either mode; at or below PC, direct gives the field and indirect gives bits
11:0 of the word at the field. -/
def Obligations.ResolveFollowsTheGuard : Prop :=
  ∀ (af : Addr) (s : State),
    (s.pc.toNat < af.toNat → ∀ ind : Bool, resolve ind af s = some 0#12) ∧
    (af.toNat ≤ s.pc.toNat → resolve false af s = some af) ∧
    (af.toNat ≤ s.pc.toNat → ∀ w : Word, s.mem.read af.toNat = some w →
      ∃ loc : Addr, resolve true af s = some loc ∧ loc.toNat = w.toNat % 4096)

/-- R86 (d), an inference of the spec: an instruction that was fetched always resolves; its pointer word exists. -/
def Obligations.FetchedInstructionsResolve : Prop :=
  ∀ (ind : Bool) (af : Addr) (s : State), s.pc.toNat < s.mem.size → ∃ loc, resolve ind af s = some loc

/-- R47: a field above the instruction's own address raises AddressOutOfBounds in ADD, AND, SUB, LD and STC, and sends a
BR or a taken BAN to address 0. -/
def Obligations.ForwardReferencesLandAtZero : Prop :=
  ∀ (ind : Bool) (af : Addr) (s : State), s.pc.toNat < af.toNat →
    (∀ i ∈ [Instr.add ind af, .and ind af, .sub ind af, .ld ind af, .stc ind af],
      exec i s = .next { s with run := .fatal .addressOutOfBounds (some 0) }) ∧
    exec (.br ind af) s = .next { s with pc := 0#16 } ∧
    (tc16 pullet16 s.acc < 0 → exec (.ban ind af) s = .next { s with pc := 0#16 })

/-- R88 and R90: CheckAccess refuses location 0, and a location in range without a loaded word (the spec's own second
test, D9; log 14), in all five data instructions, before any effect. -/
def Obligations.DataAccessesAreValidated : Prop :=
  AccessIsValidated .add ∧ AccessIsValidated .and ∧ AccessIsValidated .sub ∧ AccessIsValidated .ld ∧
  AccessIsValidated .stc

/-- R141: AddressOutOfBounds is raised, with nothing written, by a data instruction whose location is outside
(0, KMAXMEMORY]: a direct reference to 0, an indirect one whose pointer holds 0 in bits 11:0, every forward reference.
No other instruction raises it, and a step raises it only through a data instruction whose resolved location is
outside: no fetch and no pointer read does. -/
def Obligations.AddressOutOfBoundsIsForDataAccess : Prop :=
  (∀ (i : Instr) (ind : Bool) (af loc : Addr) (s : State), dataOperands i = some (ind, af) →
    resolve ind af s = some loc → ¬ (0 < loc.toNat ∧ loc.toNat ≤ 4095) →
    exec i s = .next { s with run := .fatal .addressOutOfBounds (some loc.toNat) }) ∧
  (∀ (i : Instr) (ind : Bool) (af : Addr) (s : State), dataOperands i = some (ind, af) →
    (s.pc.toNat < af.toNat ∨ (ind = false ∧ af = 0#12) ∨
      (ind = true ∧ ∃ w : Word, s.mem.read af.toNat = some w ∧ w.toNat % 4096 = 0)) →
    exec i s = .next { s with run := .fatal .addressOutOfBounds (some 0) }) ∧
  (∀ (i : Instr) (s t : State) (info : Option Nat), dataOperands i = none → s.run = .running →
    exec i s = .next t → t.run ≠ .fatal .addressOutOfBounds info) ∧
  (∀ (s t : State) (info : Option Nat), step s = .next t → t.run = .fatal .addressOutOfBounds info →
    ∃ (w : Word) (ind : Bool) (af loc : Addr), s.mem.read s.pc.toNat = some w ∧
      dataOperands (decode w) = some (ind, af) ∧ resolve ind af s = some loc ∧
      ¬ (0 < loc.toNat ∧ loc.toNat ≤ 4095) ∧ info = some loc.toNat)

/-! ### What each instruction does -/

/-- ADD (R100, truncated when ACC is written, D3, log 21): with an operand word m at the resolved location, ACC becomes
enc16(tc16(ACC) + tc16(m)), which is (ACC + m) mod 65536, PC advances by one, nothing else changes. -/
def Obligations.AddEffect : Prop :=
  ∀ (ind : Bool) (af loc : Addr) (s : State) (m : Word), resolve ind af s = some loc → loc ≠ 0#12 →
    s.mem.read loc.toNat = some m →
    exec (.add ind af) s =
      .next { s with acc := BitVec.ofNat 16 ((s.acc.toNat + m.toNat) % 65536), pc := s.pc + 1#16 } ∧
    BitVec.ofNat 16 ((s.acc.toNat + m.toNat) % 65536) = enc16 (tc16 pullet16 s.acc + tc16 pullet16 m)

/-- AND (R101): each bit of ACC becomes its conjunction with that bit of m, PC advances by one, nothing else changes. -/
def Obligations.AndEffect : Prop :=
  ∀ (ind : Bool) (af loc : Addr) (s : State) (m : Word), resolve ind af s = some loc → loc ≠ 0#12 →
    s.mem.read loc.toNat = some m →
    ∃ v : Word, exec (.and ind af) s = .next { s with acc := v, pc := s.pc + 1#16 } ∧
      ∀ j : Nat, v.getLsbD j = (s.acc.getLsbD j && m.getLsbD j)

/-- SUB (R102): ACC becomes (ACC - m[11:0]) mod 65536, the upper four bits of m ignored, PC advances by one, nothing else
changes. -/
def Obligations.SubEffect : Prop :=
  ∀ (ind : Bool) (af loc : Addr) (s : State) (m : Word), resolve ind af s = some loc → loc ≠ 0#12 →
    s.mem.read loc.toNat = some m →
    ∃ v : Word, exec (.sub ind af) s = .next { s with acc := v, pc := s.pc + 1#16 } ∧
      (v.toNat : Int) = ((s.acc.toNat : Int) - ((m.toNat % 4096 : Nat) : Int)) % 65536

/-- LD (R110): ACC becomes bits 11:0 of m with zeros above, PC advances by one, nothing else changes. -/
def Obligations.LdEffect : Prop :=
  ∀ (ind : Bool) (af loc : Addr) (s : State) (m : Word), resolve ind af s = some loc → loc ≠ 0#12 →
    s.mem.read loc.toNat = some m →
    exec (.ld ind af) s = .next { s with acc := BitVec.ofNat 16 (m.toNat % 4096), pc := s.pc + 1#16 }

/-- STC (R111): the word at the resolved location, which the STC does not read, becomes the accumulator's pattern; every
other word, and whether a word exists, is as before; ACC becomes 0 and PC advances by one; nothing else changes. -/
def Obligations.StcEffect : Prop :=
  ∀ (ind : Bool) (af loc : Addr) (s : State), resolve ind af s = some loc → loc ≠ 0#12 →
    loc.toNat < s.mem.size →
    ∃ m : Memory, exec (.stc ind af) s = .next { s with mem := m, acc := 0#16, pc := s.pc + 1#16 } ∧
      m.size = s.mem.size ∧ m.read loc.toNat = some s.acc ∧
      ∀ a : Nat, a ≠ loc.toNat → m.read a = s.mem.read a

/-- BR (R120): PC becomes the resolved location, unvalidated and not incremented; nothing else changes. -/
def Obligations.BrEffect : Prop :=
  ∀ (ind : Bool) (af loc : Addr) (s : State), resolve ind af s = some loc →
    exec (.br ind af) s = .next { s with pc := BitVec.ofNat 16 loc.toNat }

/-- BAN (R121, R124; the threshold of D17, log 9): with ACC in 0x8001..0xFFFF PC becomes the resolved location; with any
other ACC PC advances by one, resolvable or not; nothing else changes. -/
def Obligations.BanEffect : Prop :=
  ∀ (ind : Bool) (af : Addr) (s : State),
    (0x8001 ≤ s.acc.toNat → ∀ loc : Addr, resolve ind af s = some loc →
      exec (.ban ind af) s = .next { s with pc := BitVec.ofNat 16 loc.toNat }) ∧
    (s.acc.toNat ≤ 0x8000 → exec (.ban ind af) s = .next { s with pc := s.pc + 1#16 })

/-- RD (R131, D3, D13): with Val(n) next, ACC becomes the pattern congruent to n modulo 65536; with Malformed next, ACC
becomes the free value of that draw, whatever it is (log 7); either way one item is consumed, PC advances by one and
nothing of the spec's state changes besides. -/
def Obligations.RdEffect : Prop :=
  ∀ (s : State),
    (∀ n : Int, s.input[s.inPos]? = some (.val n) →
      ∃ v : Word, exec .rd s = .next { s with acc := v, inPos := s.inPos + 1, pc := s.pc + 1#16 } ∧
        (v.toNat : Int) = n % 65536) ∧
    (s.input[s.inPos]? = some .malformed →
      exec .rd s = .next { s with
        acc := Config.freeWord s.draws, draws := s.draws + 1, inPos := s.inPos + 1, pc := s.pc + 1#16 })

/-- R142: RD with no unconsumed item raises InputExhausted; ACC and INPOS keep their values, and all else but RUN. -/
def Obligations.ReadPastInputIsFatal : Prop :=
  ∀ s : State, s.inPos = s.input.length →
    exec .rd s = .next { s with run := .fatal .inputExhausted none }

/-- WRT (R132): the record (tc16(ACC), ACC) is appended to OUT and PC advances by one; nothing else changes. The signed
value is written out: ACC up to 32768, ACC - 65536 above (D17, log 9). A step at any word of the row 0xE003 / 0xE007 does
the same (D1, D2, log 8). -/
def Obligations.WrtEffect : Prop :=
  ∀ s t : State,
    t = { s with
      out := s.out ++ [{ value := if s.acc.toNat ≤ 32768 then (s.acc.toNat : Int) else (s.acc.toNat : Int) - 65536,
                         pattern := s.acc }],
      pc := s.pc + 1#16 } →
    exec .wrt s = .next t ∧
    ∀ w : Word, s.run = .running → s.pc.toNat ≤ 4095 → s.mem.read s.pc.toNat = some w →
      w &&& 0xE007#16 = 0xE003#16 → step s = .next t

/-- STP (R133): RUN becomes HALTED and nothing else changes. That PC is kept is the spec's decision D5 (log 11). A step at
any word of the row 0xE002 / 0xE007 does the same (D1, D2, log 8), and the machine then has no step (R84; the fault that
says so is the model's, log 5). -/
def Obligations.StpEffect : Prop :=
  ∀ s t : State, t = { s with run := .halted } →
    exec .stp s = .next t ∧
    (∀ w : Word, s.run = .running → s.pc.toNat ≤ 4095 → s.mem.read s.pc.toNat = some w →
      w &&& 0xE007#16 = 0xE002#16 → step s = .next t) ∧
    step t = .fault .halted

/-- The no-ops (R134): PC advances by one and nothing else changes; a step at any word of the five rows does the same
(D1, D2, log 8). -/
def Obligations.NopEffect : Prop :=
  ∀ s t : State, t = { s with pc := s.pc + 1#16 } →
    (∀ i ∈ [Instr.nop000, .nop100, .nop101, .nop110, .nop111], exec i s = .next t) ∧
    ∀ w : Word, s.run = .running → s.pc.toNat ≤ 4095 → s.mem.read s.pc.toNat = some w →
      w &&& 0xE007#16 ∈ [0xE000#16, 0xE004#16, 0xE005#16, 0xE006#16, 0xE007#16] → step s = .next t

/-! ### The step -/

/-- R80, R83: a RUNNING machine whose PC names a loaded word runs the instruction that word decodes to, with nothing
around it: advancing PC is part of the instruction's meaning (log 17). -/
def Obligations.StepRunsTheDecodedInstruction : Prop :=
  ∀ (s : State) (w : Word), s.run = .running → s.pc.toNat ≤ 4095 → s.mem.read s.pc.toNat = some w →
    step s = exec (decode w) s

/-- R80, R81, R84 where nothing is fetched: PC at or above MEMSIZE halts normally (D7), and an ended machine has no
step; the model answers a fault that names the end (log 5). -/
def Obligations.StepsWithoutAFetch : Prop :=
  (∀ s : State, s.run = .running → s.pc.toNat ≤ 4095 → s.mem.size ≤ s.pc.toNat →
    step s = .next { s with run := .halted }) ∧
  (∀ s : State, s.run = .halted → step s = .fault .halted) ∧
  (∀ (s : State) (cause : Cause) (info : Option Nat), s.run = .fatal cause info →
    step s = .fault (.fatalEnd cause info))

/-- R143: PC > KMAXMEMORY raises PcOutOfRange before the loaded-range test and before any fetch (the order of the tests is
the spec's decision D8, log 19); and no run from reset, of any program of at most KMAXMEMORY words on any input, ever
raises it (the spec's inference in R26, "From reset every reachable value of PC is in 0..4095"). -/
def Obligations.PcOutOfRangeIsUnreachable : Prop :=
  (∀ s : State, s.run = .running → 4095 < s.pc.toNat →
    step s = .next { s with run := .fatal .pcOutOfRange (some s.pc.toNat) }) ∧
  (∀ (mem0 : List Word) (input : List InItem) (k : Nat) (info : Option Nat), mem0.length ≤ 4095 →
    (runFor k (State.boot mem0 input)).run ≠ .fatal .pcOutOfRange info)

/-- R84, and "while RUN = RUNNING exactly one step is always enabled" (93_implementation_defined.md): in every state,
reached or not, the machine has a next state exactly while RUN is RUNNING. -/
def Obligations.StepEnabledExactlyWhileRunning : Prop :=
  ∀ s : State, (∃ t, step s = .next t) ↔ s.run = .running

/-- R84, R149, R151: an ended run stays as it is, and a run that ends normally is FATAL at no point, which is what
exitsNonZero = false says: only FATAL maps to a non-zero status (R150). That nothing is promised of the status of a normal
halt, not even zero, is the model's choice (D26, log 23). -/
def Obligations.EndsOfRunsAreFinal : Prop :=
  (∀ (k : Nat) (s : State), s.ended → runFor k s = s) ∧
  (∀ (j k : Nat) (s : State), (runFor k s).endedNormally → exitsNonZero (runFor j s).run = false)

/-- R25, R82 (the instruction kind, D15; PC kept at an end, D5 and D12): after a step that leaves RUN RUNNING, PC is the
resolved location for BR and for BAN with negative ACC, and PC + 1 otherwise; after a step that ends the run PC is
unchanged. -/
def Obligations.PcAfterAStep : Prop :=
  ∀ s t : State, step s = .next t →
    (t.run ≠ .running → t.pc = s.pc) ∧
    (t.run = .running → ∃ w : Word, s.mem.read s.pc.toNat = some w ∧
      (∀ (ind : Bool) (af : Addr),
        (decode w = .br ind af ∨ (decode w = .ban ind af ∧ tc16 pullet16 s.acc < 0)) →
        ∃ loc : Addr, resolve ind af s = some loc ∧ t.pc.toNat = loc.toNat) ∧
      ((∀ (ind : Bool) (af : Addr), decode w ≠ .br ind af ∧
          ¬ (decode w = .ban ind af ∧ tc16 pullet16 s.acc < 0)) →
        t.pc.toNat = s.pc.toNat + 1))

/-- R148 (D12): a step that ends in a fatal condition has changed nothing but RUN: PC, ACC, MEM, INPOS and OUT are as
they were before the step. -/
def Obligations.FatalStepsChangeOnlyRun : Prop :=
  ∀ (s t : State) (cause : Cause) (info : Option Nat), step s = .next t → t.run = .fatal cause info →
    t = { s with run := .fatal cause info }

/-- R140 and R147 (the list is the spec's, UnloadedAccess D9): exactly when a step of a RUNNING machine raises each of the
four causes, and with which info. -/
def Obligations.FatalCausesAreExact : Prop :=
  ∀ (s t : State) (cause : Cause) (info : Option Nat), s.run = .running → step s = .next t →
    (t.run = .fatal cause info ↔
      (cause = .pcOutOfRange ∧ info = some s.pc.toNat ∧ 4095 < s.pc.toNat) ∨
      (∃ (w : Word) (ind : Bool) (af loc : Addr), s.pc.toNat ≤ 4095 ∧ s.mem.read s.pc.toNat = some w ∧
        dataOperands (decode w) = some (ind, af) ∧ resolve ind af s = some loc ∧ info = some loc.toNat ∧
        ((cause = .addressOutOfBounds ∧ loc = 0#12) ∨
         (cause = .unloadedAccess ∧ loc ≠ 0#12 ∧ s.mem.size ≤ loc.toNat))) ∨
      (∃ w : Word, s.pc.toNat ≤ 4095 ∧ s.mem.read s.pc.toNat = some w ∧ decode w = .rd ∧
        cause = .inputExhausted ∧ info = none ∧ s.input.length ≤ s.inPos))

/-- R28, R80, R133: a step of a RUNNING machine ends the run normally exactly when PC, at most KMAXMEMORY, is at or above
MEMSIZE (D7) or names an STP; and then nothing but RUN changes (D5 for PC). -/
def Obligations.NormalHaltExactlyWhen : Prop :=
  ∀ s t : State, s.run = .running → step s = .next t →
    (t.run = .halted ↔ s.pc.toNat ≤ 4095 ∧
      (s.mem.size ≤ s.pc.toNat ∨ ∃ w, s.mem.read s.pc.toNat = some w ∧ decode w = .stp)) ∧
    (t.run = .halted → t = { s with run := .halted })

/-! ### Whole-machine rules -/

/-- Every step keeps the invariant: MEM stays in its canonical form and within KMAXMEMORY, PC stays in 0..4095 (R26),
INPOS in 0..length(IN) (R20), IN in range (R52), every record in OUT a pattern with its signed view (R54). -/
def Obligations.StepKeepsTheInvariant : Prop :=
  ∀ s t : State, s.Inv → step s = .next t → t.Inv

/-- Reset meets the invariant, with nothing loaded (log 4) and with any program and input the host may choose (R163);
and reset of any machine in it (R160) stays in it. -/
def Obligations.ResetMeetsTheInvariant : Prop :=
  State.reset.Inv ∧
  (∀ (mem0 : List Word) (input : List InItem), mem0.length ≤ 4095 → (∀ it ∈ input, it.wf = true) →
    (State.boot mem0 input).Inv) ∧
  (∀ s : State, s.Inv → s.restart.Inv)

/-- R34 and R160 (D22): after reset PC = 0, ACC = 0, RUN = RUNNING, INPOS = 0, OUT empty, and MEM is what it was; a
booted machine's MEM[k] is the k-th loaded word and no word stands at or above MEMSIZE (R56, R163). -/
def Obligations.ResetLeavesTheSpecValues : Prop :=
  (∀ s : State, s.restart.pc = 0#16 ∧ s.restart.acc = 0#16 ∧ s.restart.run = .running ∧ s.restart.inPos = 0 ∧
    s.restart.out = [] ∧ s.restart.mem = s.mem ∧ s.restart.input = s.input) ∧
  (∀ (mem0 : List Word) (input : List InItem) (k : Nat),
    (State.boot mem0 input).mem.read k = mem0[k]? ∧ (State.boot mem0 input).mem.size = mem0.length ∧
    (State.boot mem0 input).restart = State.boot mem0 input ∧ (State.boot mem0 input).input = input)

/-- R21: MEMSIZE and IN are constant: no instruction, no step and no run changes them; in particular STC cannot extend
memory: an address without a word stays without one. -/
def Obligations.RunParametersNeverChange : Prop :=
  (∀ (i : Instr) (s t : State), exec i s = .next t → t.mem.size = s.mem.size ∧ t.input = s.input) ∧
  (∀ s t : State, step s = .next t → t.mem.size = s.mem.size ∧ t.input = s.input) ∧
  (∀ (k : Nat) (s : State), (runFor k s).mem.size = s.mem.size ∧ (runFor k s).input = s.input) ∧
  (∀ (s t : State) (a : Nat), step s = .next t → s.mem.read a = none → t.mem.read a = none)

/-- R43, R111: only STC writes memory, and only the word at the location it resolves; every other instruction leaves
every word as it was. -/
def Obligations.OnlyStcWritesMemory : Prop :=
  (∀ (i : Instr) (s t : State), (∀ (ind : Bool) (af : Addr), i ≠ .stc ind af) → exec i s = .next t → t.mem = s.mem) ∧
  (∀ (ind : Bool) (af loc : Addr) (s t : State) (a : Nat), resolve ind af s = some loc →
    exec (.stc ind af) s = .next t → a ≠ loc.toNat → t.mem.read a = s.mem.read a)

/-- R171, an inference of the spec: no step and no run changes the word at address 0. -/
def Obligations.AddressZeroIsNeverWritten : Prop :=
  (∀ s t : State, step s = .next t → t.mem.read 0 = s.mem.read 0) ∧
  (∀ (k : Nat) (s : State), (runFor k s).mem.read 0 = s.mem.read 0)

/-- R23: BR, BAN, WRT, STP and the no-ops never write ACC; LD, BR, RD, STP and the no-ops never read it: with another old
accumulator they do the same to everything else, and what LD and RD write does not depend on it. -/
def Obligations.AccumulatorReadersAndWriters : Prop :=
  (∀ (ind : Bool) (af : Addr) (s t : State),
    ∀ i ∈ [Instr.br ind af, .ban ind af, .wrt, .stp, .nop000, .nop100, .nop101, .nop110, .nop111],
      exec i s = .next t → t.acc = s.acc) ∧
  (∀ (ind : Bool) (af : Addr) (s t : State) (a : Word),
    ∀ i ∈ [Instr.ld ind af, .br ind af, .rd, .stp, .nop000, .nop100, .nop101, .nop110, .nop111],
      exec i s = .next t →
        ∃ t' : State, exec i { s with acc := a } = .next t' ∧ t' = { t with acc := t'.acc }) ∧
  (∀ (ind : Bool) (af : Addr) (s t : State) (a : Word), ∀ i ∈ [Instr.ld ind af, .rd],
    s.run = .running → exec i s = .next t → t.run = .running → exec i { s with acc := a } = .next t)

/-- R32: only RD moves INPOS, by one when it completes; only WRT adds to OUT, one record; no instruction reads OUT, and
none but RD reads INPOS. -/
def Obligations.PortStateIsTouchedOnlyByItsInstruction : Prop :=
  (∀ s t : State, s.run = .running → exec .rd s = .next t → t.run = .running → t.inPos = s.inPos + 1) ∧
  (∀ s t : State, exec .wrt s = .next t → ∃ r : OutRecord, t.out = s.out ++ [r]) ∧
  (∀ (i : Instr) (s t : State), i ≠ .rd → exec i s = .next t → t.inPos = s.inPos) ∧
  (∀ (i : Instr) (s t : State), i ≠ .wrt → exec i s = .next t → t.out = s.out) ∧
  (∀ (i : Instr) (s t : State) (o : List OutRecord), exec i s = .next t →
    ∃ t' : State, exec i { s with out := o } = .next t' ∧ t' = { t with out := t'.out }) ∧
  (∀ (i : Instr) (s t : State) (p : Nat), i ≠ .rd → exec i s = .next t →
    exec i { s with inPos := p } = .next { t with inPos := p })

/-- R54 (D14): OUT only grows: what a run has emitted stays at the front of OUT, unchanged. -/
def Obligations.OutputIsAppendOnly : Prop :=
  ∀ (k : Nat) (s : State), ∃ rs : List OutRecord, (runFor k s).out = s.out ++ rs

/-- R51, an inference of the spec: a word STC stored is what the next fetch of that address runs, whatever stood there
before and whichever location it is (the STC's own too). -/
def Obligations.StoredWordsAreFetched : Prop :=
  ∀ (ind : Bool) (af loc : Addr) (s t : State), s.run = .running → resolve ind af s = some loc → loc ≠ 0#12 →
    loc.toNat < s.mem.size → exec (.stc ind af) s = .next t →
    step { t with pc := BitVec.ofNat 16 loc.toNat } =
      exec (decode s.acc) { t with pc := BitVec.ofNat 16 loc.toNat }

/-- R113, an inference of the spec from the source's testable property: STC n at address p, with 0 < n <= p and n loaded,
then LD n at p + 1 leaves the low 12 bits of the stored pattern in ACC; ACC is 0 in between and MEM[n] the pattern. -/
def Obligations.StcThenLdKeepsTwelveBits : Prop :=
  ∀ (n : Addr) (s : State), n ≠ 0#12 → n.toNat ≤ s.pc.toNat → n.toNat < s.mem.size → s.pc.toNat < 65535 →
    ∃ t u : State, exec (.stc false n) s = .next t ∧ t.acc = 0#16 ∧ t.mem.read n.toNat = some s.acc ∧
      exec (.ld false n) t = .next u ∧ u.acc.toNat = s.acc.toNat % 4096 ∧ u.pc = s.pc + 2#16

/-- R152, an inference of the spec: a direct BR to its own address, and a direct BAN to its own address with negative ACC,
leave the state as it is; the run hangs. -/
def Obligations.SelfBranchesHang : Prop :=
  ∀ (s : State) (w : Word) (n : Addr), s.run = .running → s.mem.read s.pc.toNat = some w → n.toNat = s.pc.toNat →
    (decode w = .br false n ∨ (decode w = .ban false n ∧ 0x8001 ≤ s.acc.toNat)) →
    step s = .next s ∧ s.Hangs

/-- Equal memories are equal data: two memories in canonical form with the same MEMSIZE and the same word at every
address are the same (log 2). -/
def Obligations.CanonicalMemoriesAreEqual : Prop :=
  ∀ m m' : Memory, m.wf = true → m'.wf = true → m.size = m'.size → (∀ a : Nat, m.read a = m'.read a) → m = m'

/-- R53: a token of a sign and four uppercase hexadecimal digits is Val(sign * (4096 h3 + 256 h2 + 16 h1 + h0)), always in
-65535..65535; every other token, one with a lowercase digit included, is Malformed. That is the model's reading (log 18,
DEDUCED), and the formula rests on R53's own sentence "the digit-weight formula is the ordinary reading of '4 uppercase
hexadecimal digits' and the source gives no worked token". -/
def Obligations.InputTokensAreSignedHex : Prop :=
  (∀ (neg : Bool) (h3 h2 h1 h0 : Fin 16), ∀ digits : List Char,
    digits = ['0', '1', '2', '3', '4', '5', '6', '7', '8', '9', 'A', 'B', 'C', 'D', 'E', 'F'] →
    itemOfToken [if neg then '-' else '+', digits.getD h3 ' ', digits.getD h2 ' ', digits.getD h1 ' ',
        digits.getD h0 ' '] =
      .val ((if neg then -1 else 1) * (4096 * (h3.val : Int) + 256 * h2.val + 16 * h1.val + h0.val))) ∧
  (∀ (cs : List Char) (n : Int), itemOfToken cs = .val n → -65535 ≤ n ∧ n ≤ 65535) ∧
  (∀ cs : List Char, itemOfToken cs ≠ .malformed →
    cs.length = 5 ∧ (cs.head? = some '+' ∨ cs.head? = some '-') ∧
      ∀ ch ∈ cs.tail,
        ch ∈ ['0', '1', '2', '3', '4', '5', '6', '7', '8', '9', 'A', 'B', 'C', 'D', 'E', 'F'])
end

