-- ==== Sys2Proof/Laws/Encoding.lean ====
section
/-! SUPPORT. The fields of an assembled word, and the match and mask tests of 30_encoding.md R71 as tests of fields. -/

namespace Sys2Proof

theorem getLsbD_assemble_mnFirst (mn : Code) (ind : Bool) (af : Addr) (j : Nat) :
    (assemble .mnFirst mn ind af).getLsbD j =
      if j < 12 then af.getLsbD j else if j - 12 < 1 then ind else mn.getLsbD (j - 13) := by
  simp only [assemble, BitVec.getLsbD_append]
  by_cases h : j < 12
  · simp only [h, if_true]
  · by_cases h1 : j - 12 < 1
    · have : j - 12 = 0 := by omega
      simp [h, this]
    · simp only [h, h1, if_false, Nat.sub_sub]

theorem getLsbD_assemble_indFirst (mn : Code) (ind : Bool) (af : Addr) (j : Nat) :
    (assemble .indFirst mn ind af).getLsbD j =
      if j < 12 then af.getLsbD j else if j - 12 < 3 then mn.getLsbD (j - 12) else
        (BitVec.ofBool ind).getLsbD (j - 15) := by
  simp only [assemble, BitVec.getLsbD_append, Nat.sub_sub]

@[simp] theorem fieldMn_assemble (l : Layout) (mn : Code) (ind : Bool) (af : Addr) :
    fieldMn l (assemble l mn ind af) = mn := by
  apply BitVec.eq_of_getLsbD_eq
  intro j hj
  cases l
  · rw [fieldMn, BitVec.getLsbD_extractLsb', getLsbD_assemble_mnFirst]
    have h12 : ¬ 13 + j < 12 := by omega
    have h1 : ¬ 13 + j - 12 < 1 := by omega
    simp only [hj, h12, h1, decide_true, Bool.true_and, if_false, Nat.add_sub_cancel_left]
  · rw [fieldMn, BitVec.getLsbD_extractLsb', getLsbD_assemble_indFirst]
    have h12 : ¬ 12 + j < 12 := by omega
    simp only [hj, h12, decide_true, Bool.true_and, if_false, Nat.add_sub_cancel_left, if_true]

@[simp] theorem fieldInd_assemble (l : Layout) (mn : Code) (ind : Bool) (af : Addr) :
    fieldInd l (assemble l mn ind af) = ind := by
  cases l
  · exact getLsbD_assemble_mnFirst mn ind af 12
  · exact (getLsbD_assemble_indFirst mn ind af 15).trans (by cases ind <;> rfl)

/-- The low 12 bits are the address field in either layout. -/
theorem getLsbD_assemble_low (l : Layout) (mn : Code) (ind : Bool) (af : Addr) {j : Nat} (h : j < 12) :
    (assemble l mn ind af).getLsbD j = af.getLsbD j := by
  cases l
  · rw [getLsbD_assemble_mnFirst, if_pos h]
  · rw [getLsbD_assemble_indFirst, if_pos h]

@[simp] theorem fieldAf_assemble (l : Layout) (mn : Code) (ind : Bool) (af : Addr) :
    fieldAf (assemble l mn ind af) = af := by
  apply BitVec.eq_of_getLsbD_eq
  intro j hj
  rw [fieldAf, BitVec.getLsbD_extractLsb', Nat.zero_add, getLsbD_assemble_low l mn ind af hj]
  simp only [hj, decide_true, Bool.true_and]

@[simp] theorem fieldSub3_assemble (l : Layout) (mn : Code) (ind : Bool) (af : Addr) :
    fieldSub3 (assemble l mn ind af) = af.extractLsb' 0 3 := by
  apply BitVec.eq_of_getLsbD_eq
  intro j hj
  rw [fieldSub3, BitVec.getLsbD_extractLsb', BitVec.getLsbD_extractLsb', Nat.zero_add,
    getLsbD_assemble_low l mn ind af (by omega)]

/-- A word is put together again from its fields, in the layout of D1. -/
theorem assemble_fields (w : Word) :
    assemble .mnFirst (fieldMn .mnFirst w) (fieldInd .mnFirst w) (fieldAf w) = w := by
  apply BitVec.eq_of_getLsbD_eq
  intro j hj
  rw [getLsbD_assemble_mnFirst, fieldMn, fieldInd, fieldAf, BitVec.getLsbD_extractLsb', BitVec.getLsbD_extractLsb']
  by_cases h : j < 12
  · simp only [h, if_true, decide_true, Bool.true_and, Nat.zero_add]
  · by_cases h1 : j - 12 < 1
    · have : j = 12 := by omega
      simp only [this, Nat.lt_irrefl, if_false, Nat.sub_self, Nat.zero_lt_one, if_true]
    · have h3 : j - 13 < 3 := by omega
      have h13 : 13 + (j - 13) = j := by omega
      simp only [h, h1, if_false, h3, decide_true, Bool.true_and, h13]

/-- The mask 0xE000 tests the mnemonic field. -/
theorem mask_addressed (w : Word) (k : Code) : w &&& 0xE000#16 = k ++ 0#13 ↔ fieldMn .mnFirst w = k := by
  have hm : ∀ j, j < 16 → (0xE000#16).getLsbD j = decide (13 ≤ j) := by decide
  constructor
  · intro h
    apply BitVec.eq_of_getLsbD_eq
    intro j hj
    have hb := congrArg (fun x => x.getLsbD (13 + j)) h
    simp only [BitVec.getLsbD_and, hm _ (show 13 + j < 16 by omega), BitVec.getLsbD_append] at hb
    simpa [fieldMn, hj] using hb
  · rintro rfl
    apply BitVec.eq_of_getLsbD_eq
    intro j hj
    rw [BitVec.getLsbD_and, hm j hj, BitVec.getLsbD_append]
    by_cases h : j < 13
    · simp [h]
    · have h3 : j - 13 < 3 := by omega
      have h13 : 13 + (j - 13) = j := by omega
      have hle : 13 ≤ j := by omega
      simp [h, fieldMn, h3, h13, hle]

/-- The mask 0xE007 tests the extended code and the sub-code. -/
theorem mask_extended (w : Word) (k : Code) :
    w &&& 0xE007#16 = 7#3 ++ 0#10 ++ k ↔ fieldMn .mnFirst w = 7#3 ∧ fieldSub3 w = k := by
  have hm : ∀ j, j < 16 → (0xE007#16).getLsbD j = (decide (13 ≤ j) || decide (j < 3)) := by decide
  have h7 : ∀ j, j < 3 → (7#3).getLsbD j = true := by decide
  constructor
  · intro h
    constructor
    · apply BitVec.eq_of_getLsbD_eq
      intro j hj
      have hb := congrArg (fun x => x.getLsbD (13 + j)) h
      have e : 13 + j - 3 - 10 = j := by omega
      have h3 : ¬ 13 + j < 3 := by omega
      have h10 : ¬ 13 + j - 3 < 10 := by omega
      simp only [BitVec.getLsbD_and, hm _ (show 13 + j < 16 by omega), BitVec.getLsbD_append, h3, h10, e,
        h7 j hj] at hb
      rw [h7 j hj]
      simpa [fieldMn, hj] using hb
    · apply BitVec.eq_of_getLsbD_eq
      intro j hj
      have hb := congrArg (fun x => x.getLsbD j) h
      simp only [BitVec.getLsbD_and, hm _ (show j < 16 by omega), BitVec.getLsbD_append, hj] at hb
      simpa [fieldSub3, hj] using hb
  · rintro ⟨h1, rfl⟩
    apply BitVec.eq_of_getLsbD_eq
    intro j hj
    rw [BitVec.getLsbD_and, hm j hj, BitVec.getLsbD_append, BitVec.getLsbD_append]
    by_cases h : j < 3
    · simp [h, fieldSub3]
    · by_cases h10 : j - 3 < 10
      · have : ¬ 13 ≤ j := by omega
        simp [h, h10, this]
      · have e := congrArg (fun x => x.getLsbD (j - 13)) h1
        have h3 : j - 13 < 3 := by omega
        have h13 : 13 + (j - 13) = j := by omega
        have hs : j - 3 - 10 = j - 13 := by omega
        have hle : 13 ≤ j := by omega
        simp only [h7 _ h3] at e
        simp only [fieldMn, BitVec.getLsbD_extractLsb', h3, h13, decide_true, Bool.true_and] at e
        simp [h, h10, hs, h7 _ h3, e, hle]

/-- A code found for an opcode is one the OPMAP gives to it. -/
theorem Config.opMap_of_codeOf {c : Config} {p : Primary} {k : Code} (h : c.codeOf p = some k) :
    c.opMap k = some p := by
  unfold Config.codeOf at h
  simpa using List.find?_some h

/-- Enc is the row word of an instruction that is no no-op. -/
theorem encode_eq_some {i : Instr} {w : Word} : encode i = some w ↔ i.isNoOp = false ∧ rowWord i = w := by
  cases h : i.isNoOp <;> simp [encode, h]

theorem encodeWith_eq_some {c : Config} {i : Instr} {w : Word} :
    encodeWith c i = some w ↔ i.isNoOp = false ∧ rowWordWith c i = some w := by
  cases h : i.isNoOp <;> simp [encodeWith, h]

end Sys2Proof
end

