-- ==== Sys2Proof/Laws/Memory.lean ====
section
/-! SUPPORT. The laws of memory words: what a read gives after a write, and that every memory operation keeps the
canonical form. -/

namespace Sys2Proof.Machine

theorem lookupCell_eraseCell (a b : Nat) (l : List (Nat × Word)) :
    lookupCell b (eraseCell a l) = if b = a then 0#16 else lookupCell b l := by
  induction l with
  | nil => simp [eraseCell, lookupCell]
  | cons e r ih =>
    obtain ⟨k, v⟩ := e
    by_cases hk : k = a <;> by_cases hb : k = b <;> simp_all [eraseCell, lookupCell]

/-- Inserting into a listing without the address puts the value there and nowhere else. -/
theorem lookupCell_insertCell (a b : Nat) (v : Word) (l : List (Nat × Word)) (h : ∀ e ∈ l, e.1 ≠ a) :
    lookupCell b (insertCell a v l) = if b = a then v else lookupCell b l := by
  induction l with
  | nil => simp [insertCell, lookupCell, eq_comm]
  | cons e r ih =>
    obtain ⟨k, u⟩ := e
    have hk : k ≠ a := h (k, u) (by simp)
    have ih' := ih fun e he => h e (by simp [he])
    by_cases hlt : a < k
    · simp [insertCell, lookupCell, hlt, eq_comm]
    · by_cases hb : k = b
      · subst hb
        simp [insertCell, lookupCell, hlt, hk]
      · simp [insertCell, lookupCell, hlt, hb, ih']

theorem eraseCell_ne (a : Nat) (l : List (Nat × Word)) : ∀ e ∈ eraseCell a l, e.1 ≠ a := by
  induction l with
  | nil => simp [eraseCell]
  | cons e r ih =>
    obtain ⟨k, v⟩ := e
    by_cases hk : k = a <;> simpa [eraseCell, hk] using ih

/-- The listing a write leaves holds the new value at its address and every other word as before. -/
theorem lookupCell_written (a b : Nat) (v : Word) (l : List (Nat × Word)) :
    lookupCell b (if v = 0#16 then eraseCell a l else insertCell a v (eraseCell a l)) =
      if b = a then v else lookupCell b l := by
  split
  · rename_i hv
    simp [lookupCell_eraseCell, hv]
  · rw [lookupCell_insertCell a b v _ (eraseCell_ne a l), lookupCell_eraseCell]
    split <;> simp_all

/-- A word exists exactly below MEMSIZE. -/
theorem Memory.read_eq_none {m : Memory} {a : Nat} : m.read a = none ↔ m.size ≤ a := by
  simp [Memory.read]

theorem Memory.read_isSome {m : Memory} {a : Nat} (h : a < m.size) : ∃ w, m.read a = some w := by
  simp [Memory.read, h]

theorem Memory.lt_of_read {m : Memory} {a : Nat} {w : Word} (h : m.read a = some w) : a < m.size := by
  by_contra hn
  simp [Memory.read_eq_none.2 (Nat.le_of_not_lt hn)] at h

theorem Memory.write_isSome {m : Memory} {a : Nat} (v : Word) (h : a < m.size) : ∃ m', m.write a v = some m' := by
  simp [Memory.write, h]

/-- All a write does: its address existed, no word is created, and a read gives the new word there and the old word
elsewhere. -/
theorem Memory.write_spec {m m' : Memory} {a : Nat} {v : Word} (h : m.write a v = some m') :
    a < m.size ∧ m'.size = m.size ∧ ∀ b, m'.read b = if b = a then some v else m.read b := by
  unfold Memory.write at h
  split at h
  · rename_i ha
    injection h with h
    subst h
    refine ⟨ha, rfl, fun b => ?_⟩
    simp only [Memory.read, lookupCell_written]
    by_cases hb : b = a
    · simp [hb, ha]
    · simp [hb]
  · cases h

theorem cellsWf_mono {size lo lo' : Nat} (l : List (Nat × Word)) (hle : lo' ≤ lo) (h : cellsWf size lo l = true) :
    cellsWf size lo' l = true := by
  cases l with
  | nil => rfl
  | cons e r =>
    obtain ⟨k, v⟩ := e
    simp only [cellsWf, Bool.and_eq_true, decide_eq_true_eq] at h ⊢
    exact ⟨⟨⟨by omega, h.1.1.2⟩, h.1.2⟩, h.2⟩

theorem cellsWf_eraseCell (a : Nat) {size : Nat} (l : List (Nat × Word)) (lo : Nat) (h : cellsWf size lo l = true) :
    cellsWf size lo (eraseCell a l) = true := by
  induction l generalizing lo with
  | nil => rfl
  | cons e r ih =>
    obtain ⟨k, v⟩ := e
    simp only [cellsWf, Bool.and_eq_true, decide_eq_true_eq] at h
    have hr := ih (k + 1) h.2
    by_cases hk : k = a
    · simpa [eraseCell, hk] using cellsWf_mono _ (by omega) (hk ▸ hr)
    · simp [eraseCell, hk, cellsWf, h, hr]

theorem cellsWf_insertCell {a size : Nat} {v : Word} (ha : a < size) (hv : v ≠ 0#16) (l : List (Nat × Word)) (lo : Nat)
    (hlo : lo ≤ a) (hne : ∀ e ∈ l, e.1 ≠ a) (h : cellsWf size lo l = true) :
    cellsWf size lo (insertCell a v l) = true := by
  induction l generalizing lo with
  | nil => simp [insertCell, cellsWf, hlo, ha, hv]
  | cons e r ih =>
    obtain ⟨k, u⟩ := e
    have hk : k ≠ a := hne (k, u) (by simp)
    simp only [cellsWf, Bool.and_eq_true, decide_eq_true_eq] at h
    by_cases hlt : a < k
    · simp only [insertCell, hlt, if_true, cellsWf, Bool.and_eq_true, decide_eq_true_eq]
      exact ⟨⟨⟨hlo, ha⟩, hv⟩, ⟨⟨hlt, h.1.1.2⟩, h.1.2⟩, h.2⟩
    · have := ih (k + 1) (by omega) (fun e he => hne e (by simp [he])) h.2
      simp only [insertCell, hlt, if_false, cellsWf, Bool.and_eq_true, decide_eq_true_eq]
      exact ⟨h.1, this⟩

/-- A write keeps the canonical form. -/
theorem Memory.write_wf {m m' : Memory} {a : Nat} {v : Word} (hm : m.wf = true) (h : m.write a v = some m') :
    m'.wf = true := by
  unfold Memory.write at h
  split at h
  · rename_i ha
    injection h with h
    subst h
    have he := cellsWf_eraseCell a m.cells 0 hm
    simp only [Memory.wf]
    split
    · exact he
    · rename_i hv
      exact cellsWf_insertCell ha hv _ 0 (Nat.zero_le a) (eraseCell_ne a _) he
  · cases h

theorem cellsWf_loadCells (ws : List Word) (k size : Nat) (h : k + ws.length ≤ size) :
    cellsWf size k (loadCells k ws) = true := by
  induction ws generalizing k with
  | nil => rfl
  | cons w r ih =>
    simp only [List.length_cons] at h
    have hr := ih (k + 1) (by omega)
    by_cases hw : w = 0#16
    · simpa [loadCells, hw] using cellsWf_mono _ (Nat.le_succ k) hr
    · simp only [loadCells, hw, if_false, cellsWf, Bool.and_eq_true, decide_eq_true_eq]
      exact ⟨⟨⟨Nat.le_refl k, by omega⟩, hw⟩, hr⟩

/-- Loading a program leaves the canonical form. -/
theorem Memory.load_wf (ws : List Word) : (Memory.load ws).wf = true :=
  cellsWf_loadCells ws 0 ws.length (by simp)

@[simp] theorem Memory.load_size (ws : List Word) : (Memory.load ws).size = ws.length := rfl

/-- Reset memory has the canonical form. -/
theorem State.reset_mem_wf : State.reset.mem.wf = true := rfl

end Sys2Proof.Machine
end

