-- ==== Sys2Proof/Laws/State.lean ====
section
/-! SUPPORT. What each one-field update of the state does to each field. -/

namespace Sys2Proof.Machine

variable (s : State)

@[simp] theorem State.setPc_pc (v : Word) : (s.setPc v).pc = v := rfl
@[simp] theorem State.setPc_acc (v : Word) : (s.setPc v).acc = s.acc := rfl
@[simp] theorem State.setPc_run (v : Word) : (s.setPc v).run = s.run := rfl
@[simp] theorem State.setPc_mem (v : Word) : (s.setPc v).mem = s.mem := rfl
@[simp] theorem State.setPc_input (v : Word) : (s.setPc v).input = s.input := rfl
@[simp] theorem State.setPc_inPos (v : Word) : (s.setPc v).inPos = s.inPos := rfl
@[simp] theorem State.setPc_out (v : Word) : (s.setPc v).out = s.out := rfl
@[simp] theorem State.setPc_draws (v : Word) : (s.setPc v).draws = s.draws := rfl

@[simp] theorem State.setAcc_pc (v : Word) : (s.setAcc v).pc = s.pc := rfl
@[simp] theorem State.setAcc_acc (v : Word) : (s.setAcc v).acc = v := rfl
@[simp] theorem State.setAcc_run (v : Word) : (s.setAcc v).run = s.run := rfl
@[simp] theorem State.setAcc_mem (v : Word) : (s.setAcc v).mem = s.mem := rfl
@[simp] theorem State.setAcc_input (v : Word) : (s.setAcc v).input = s.input := rfl
@[simp] theorem State.setAcc_inPos (v : Word) : (s.setAcc v).inPos = s.inPos := rfl
@[simp] theorem State.setAcc_out (v : Word) : (s.setAcc v).out = s.out := rfl
@[simp] theorem State.setAcc_draws (v : Word) : (s.setAcc v).draws = s.draws := rfl

@[simp] theorem State.setRun_pc (r : RunState) : (s.setRun r).pc = s.pc := rfl
@[simp] theorem State.setRun_acc (r : RunState) : (s.setRun r).acc = s.acc := rfl
@[simp] theorem State.setRun_run (r : RunState) : (s.setRun r).run = r := rfl
@[simp] theorem State.setRun_mem (r : RunState) : (s.setRun r).mem = s.mem := rfl
@[simp] theorem State.setRun_input (r : RunState) : (s.setRun r).input = s.input := rfl
@[simp] theorem State.setRun_inPos (r : RunState) : (s.setRun r).inPos = s.inPos := rfl
@[simp] theorem State.setRun_out (r : RunState) : (s.setRun r).out = s.out := rfl
@[simp] theorem State.setRun_draws (r : RunState) : (s.setRun r).draws = s.draws := rfl

@[simp] theorem State.setMem_pc (m : Memory) : (s.setMem m).pc = s.pc := rfl
@[simp] theorem State.setMem_acc (m : Memory) : (s.setMem m).acc = s.acc := rfl
@[simp] theorem State.setMem_run (m : Memory) : (s.setMem m).run = s.run := rfl
@[simp] theorem State.setMem_mem (m : Memory) : (s.setMem m).mem = m := rfl
@[simp] theorem State.setMem_input (m : Memory) : (s.setMem m).input = s.input := rfl
@[simp] theorem State.setMem_inPos (m : Memory) : (s.setMem m).inPos = s.inPos := rfl
@[simp] theorem State.setMem_out (m : Memory) : (s.setMem m).out = s.out := rfl
@[simp] theorem State.setMem_draws (m : Memory) : (s.setMem m).draws = s.draws := rfl

@[simp] theorem State.consumeItem_pc : (s.consumeItem).pc = s.pc := rfl
@[simp] theorem State.consumeItem_acc : (s.consumeItem).acc = s.acc := rfl
@[simp] theorem State.consumeItem_run : (s.consumeItem).run = s.run := rfl
@[simp] theorem State.consumeItem_mem : (s.consumeItem).mem = s.mem := rfl
@[simp] theorem State.consumeItem_input : (s.consumeItem).input = s.input := rfl
@[simp] theorem State.consumeItem_inPos : (s.consumeItem).inPos = s.inPos + 1 := rfl
@[simp] theorem State.consumeItem_out : (s.consumeItem).out = s.out := rfl
@[simp] theorem State.consumeItem_draws : (s.consumeItem).draws = s.draws := rfl

@[simp] theorem State.emit_pc (r : OutRecord) : (s.emit r).pc = s.pc := rfl
@[simp] theorem State.emit_acc (r : OutRecord) : (s.emit r).acc = s.acc := rfl
@[simp] theorem State.emit_run (r : OutRecord) : (s.emit r).run = s.run := rfl
@[simp] theorem State.emit_mem (r : OutRecord) : (s.emit r).mem = s.mem := rfl
@[simp] theorem State.emit_input (r : OutRecord) : (s.emit r).input = s.input := rfl
@[simp] theorem State.emit_inPos (r : OutRecord) : (s.emit r).inPos = s.inPos := rfl
@[simp] theorem State.emit_out (r : OutRecord) : (s.emit r).out = s.out ++ [r] := rfl
@[simp] theorem State.emit_draws (r : OutRecord) : (s.emit r).draws = s.draws := rfl

@[simp] theorem State.countDraw_pc : (s.countDraw).pc = s.pc := rfl
@[simp] theorem State.countDraw_acc : (s.countDraw).acc = s.acc := rfl
@[simp] theorem State.countDraw_run : (s.countDraw).run = s.run := rfl
@[simp] theorem State.countDraw_mem : (s.countDraw).mem = s.mem := rfl
@[simp] theorem State.countDraw_input : (s.countDraw).input = s.input := rfl
@[simp] theorem State.countDraw_inPos : (s.countDraw).inPos = s.inPos := rfl
@[simp] theorem State.countDraw_out : (s.countDraw).out = s.out := rfl
@[simp] theorem State.countDraw_draws : (s.countDraw).draws = s.draws + 1 := rfl

end Sys2Proof.Machine
end

