-- ==== Sys2Proof/Laws/Ops.lean ====
section
/-! SUPPORT. One lemma per shared operation that says everything it can do; proofs cite these and do not unfold the
operations. -/

namespace Sys2Proof.Machine

@[simp] theorem advance_eq (s : State) : advance s = .next (s.setPc (s.pc + 1#16)) := rfl

@[simp] theorem halt_eq (s : State) : halt s = .next (s.setRun .halted) := rfl

@[simp] theorem raise_eq (cause : Cause) (info : Option Nat) (s : State) :
    raise cause info s = .next (s.setRun (.fatal cause info)) := rfl

/-- What fetch finds, by the place of PC. -/
theorem fetch_eq (c : Config) (s : State) :
    (c.kMaxMemory < s.pc.toNat ∧ fetch c s = .beyondMax) ∨
    (s.pc.toNat ≤ c.kMaxMemory ∧ s.mem.size ≤ s.pc.toNat ∧ fetch c s = .pastEnd) ∨
    (∃ w, s.pc.toNat ≤ c.kMaxMemory ∧ s.mem.read s.pc.toNat = some w ∧ fetch c s = .word w) := by
  unfold fetch
  by_cases h : c.kMaxMemory < s.pc.toNat
  · exact .inl ⟨h, by simp [h]⟩
  · cases hr : s.mem.read s.pc.toNat with
    | none => exact .inr (.inl ⟨by omega, Memory.read_eq_none.1 hr, by simp [h]⟩)
    | some w => exact .inr (.inr ⟨w, by omega, rfl, by simp [h]⟩)

theorem resolve_forward {ind : Bool} {af : Addr} {s : State} (h : s.pc.toNat < af.toNat) :
    resolve ind af s = some 0#12 := by
  simp [resolve, h]

theorem resolve_direct {af : Addr} {s : State} (h : af.toNat ≤ s.pc.toNat) : resolve false af s = some af := by
  simp [resolve, Nat.not_lt.2 h]

theorem resolve_indirect {af : Addr} {s : State} (h : af.toNat ≤ s.pc.toNat) :
    resolve true af s = (s.mem.read af.toNat).map fieldAf := by
  simp [resolve, Nat.not_lt.2 h]

/-- Resolve reads only PC and MEM. -/
theorem resolve_congr {ind : Bool} {af : Addr} {s t : State} (hp : t.pc = s.pc) (hm : t.mem = s.mem) :
    resolve ind af t = resolve ind af s := by
  simp [resolve, hp, hm]

/-- The only way Resolve has no location: an indirect field whose pointer word does not exist. -/
theorem resolve_eq_none {ind : Bool} {af : Addr} {s : State} (h : resolve ind af s = none) :
    s.mem.size ≤ s.pc.toNat := by
  unfold resolve at h
  split at h
  · cases h
  · rename_i hlt
    cases ind with
    | false => cases h
    | true =>
      simp only [Option.map_eq_none_iff, Memory.read_eq_none] at h
      omega

/-- CheckAccess of this hardware on a 12-bit location: what it raises and when it returns (R88, R89 (a)). -/
theorem checkAccess_addr (size : Nat) (loc : Addr) :
    checkAccess pullet16 size loc.toNat =
      if loc = 0#12 then some .addressOutOfBounds
      else if size ≤ loc.toNat then some .unloadedAccess else none := by
  have hlt : loc.toNat < 4096 := loc.isLt
  unfold checkAccess
  by_cases h : loc = 0#12
  · simp [h]
  · have h0 : 0 < loc.toNat := by
      rcases Nat.eq_zero_or_pos loc.toNat with h1 | h1
      · exact absurd (BitVec.eq_of_toNat_eq h1) h
      · exact h1
    have h1 : loc.toNat ≤ pullet16.kMaxMemory := by
      simp only [pullet16]
      omega
    simp [h, h0, h1]

/-- All `withLocation` can answer. -/
theorem withLocation_eq (ind : Bool) (af : Addr) (s : State) (k : Addr → Result) :
    (resolve ind af s = none ∧ withLocation pullet16 ind af s k = .fault (.noWord af.toNat)) ∨
    (∃ loc, resolve ind af s = some loc ∧
      ((loc = 0#12 ∧ withLocation pullet16 ind af s k = raise .addressOutOfBounds (some 0) s) ∨
       (loc ≠ 0#12 ∧ s.mem.size ≤ loc.toNat ∧
          withLocation pullet16 ind af s k = raise .unloadedAccess (some loc.toNat) s) ∨
       (loc ≠ 0#12 ∧ loc.toNat < s.mem.size ∧ withLocation pullet16 ind af s k = k loc))) := by
  unfold withLocation
  cases hr : resolve ind af s with
  | none => exact .inl ⟨rfl, rfl⟩
  | some loc =>
    refine .inr ⟨loc, rfl, ?_⟩
    simp only [checkAccess_addr]
    by_cases h0 : loc = 0#12
    · exact .inl ⟨h0, by simp [h0]⟩
    · by_cases hs : s.mem.size ≤ loc.toNat
      · exact .inr (.inl ⟨h0, hs, by simp [h0, hs]⟩)
      · exact .inr (.inr ⟨h0, by omega, by simp [h0, hs]⟩)

/-- All `withOperand` can answer. -/
theorem withOperand_eq (ind : Bool) (af : Addr) (s : State) (k : Word → Result) :
    (resolve ind af s = none ∧ withOperand pullet16 ind af s k = .fault (.noWord af.toNat)) ∨
    (∃ loc, resolve ind af s = some loc ∧
      ((loc = 0#12 ∧ withOperand pullet16 ind af s k = raise .addressOutOfBounds (some 0) s) ∨
       (loc ≠ 0#12 ∧ s.mem.size ≤ loc.toNat ∧
          withOperand pullet16 ind af s k = raise .unloadedAccess (some loc.toNat) s) ∨
       (∃ m, loc ≠ 0#12 ∧ s.mem.read loc.toNat = some m ∧ withOperand pullet16 ind af s k = k m))) := by
  unfold withOperand
  rcases withLocation_eq ind af s _ with h | ⟨loc, hr, h | h | ⟨h0, hs, h⟩⟩
  · exact .inl h
  · exact .inr ⟨loc, hr, .inl h⟩
  · exact .inr ⟨loc, hr, .inr (.inl h)⟩
  · obtain ⟨m, hm⟩ := Memory.read_isSome hs
    exact .inr ⟨loc, hr, .inr (.inr ⟨m, h0, hm, by rw [h, hm]⟩)⟩

/-- All `branchTo` can answer. -/
theorem branchTo_eq (ind : Bool) (af : Addr) (s : State) :
    (resolve ind af s = none ∧ branchTo ind af s = .fault (.noWord af.toNat)) ∨
    (∃ loc, resolve ind af s = some loc ∧ branchTo ind af s = .next (s.setPc (loc.setWidth 16))) := by
  unfold branchTo
  cases hr : resolve ind af s with
  | none => exact .inl ⟨rfl, rfl⟩
  | some loc => exact .inr ⟨loc, rfl, rfl⟩

end Sys2Proof.Machine
end

