-- ==== Sys2Proof/Laws/Step.lean ====
section
/-! SUPPORT. What a step of a RUNNING machine can be, said once. -/

namespace Sys2Proof.Machine

/-- The three kinds of step of a RUNNING machine (R80). -/
theorem step_running {s : State} (hr : s.run = .running) :
    (pullet16.kMaxMemory < s.pc.toNat ∧ step s = raise .pcOutOfRange (some s.pc.toNat) s) ∨
    (s.pc.toNat ≤ pullet16.kMaxMemory ∧ s.mem.size ≤ s.pc.toNat ∧ step s = halt s) ∨
    (∃ w, s.pc.toNat ≤ pullet16.kMaxMemory ∧ s.mem.read s.pc.toNat = some w ∧ step s = exec (decode w) s) := by
  rcases fetch_eq pullet16 s with ⟨h, hf⟩ | ⟨h, h', hf⟩ | ⟨w, h, h', hf⟩
  · exact .inl ⟨h, by simp [step, hr, hf]⟩
  · exact .inr (.inl ⟨h, h', by simp [step, hr, hf]⟩)
  · exact .inr (.inr ⟨w, h, h', by simp [step, hr, hf]⟩)

/-- Only a RUNNING machine has a next state. -/
theorem running_of_step {s t : State} (h : step s = .next t) : s.run = .running := by
  unfold step at h
  cases hr : s.run with
  | running => rfl
  | halted => simp [hr] at h
  | fatal cause info => simp [hr] at h

end Sys2Proof.Machine
end

