-- ==== Sys2Proof/Laws/Exec.lean ====
section
/-! SUPPORT. What each meaning can answer with a next state: one inversion lemma per shape of meaning, then one for all of
exec. -/

namespace Sys2Proof.Machine

/-- How a data instruction that answers `t` was turned away by CheckAccess. -/
def TurnedAway (ind : Bool) (af : Addr) (s t : State) : Prop :=
  ∃ loc, resolve ind af s = some loc ∧
    ((loc = 0#12 ∧ t = s.setRun (.fatal .addressOutOfBounds (some 0))) ∨
     (loc ≠ 0#12 ∧ s.mem.size ≤ loc.toNat ∧ t = s.setRun (.fatal .unloadedAccess (some loc.toNat))))

/-- An instruction that computes ACC from an operand word: ADD, AND, SUB, LD. -/
theorem withOperand_next {f : Word → Word} {ind : Bool} {af : Addr} {s t : State}
    (h : withOperand pullet16 ind af s (fun m => advance (s.setAcc (f m))) = .next t) :
    TurnedAway ind af s t ∨
    ∃ loc m, resolve ind af s = some loc ∧ loc ≠ 0#12 ∧ s.mem.read loc.toNat = some m ∧
      t = (s.setAcc (f m)).setPc (s.pc + 1#16) := by
  rcases withOperand_eq ind af s (fun m => advance (s.setAcc (f m))) with
    ⟨_, e⟩ | ⟨loc, hr, ⟨h0, e⟩ | ⟨h0, hs, e⟩ | ⟨m, h0, hm, e⟩⟩ <;> rw [e] at h
  · cases h
  · cases h; exact .inl ⟨loc, hr, .inl ⟨h0, rfl⟩⟩
  · cases h; exact .inl ⟨loc, hr, .inr ⟨h0, hs, rfl⟩⟩
  · cases h; exact .inr ⟨loc, m, hr, h0, hm, rfl⟩

theorem execStc_next {ind : Bool} {af : Addr} {s t : State} (h : execStc ind af s = .next t) :
    TurnedAway ind af s t ∨
    ∃ loc m, resolve ind af s = some loc ∧ loc ≠ 0#12 ∧
      s.mem.write loc.toNat (enc16 (tc16 pullet16 s.acc)) = some m ∧
      t = ((s.setMem m).setAcc 0#16).setPc (s.pc + 1#16) := by
  unfold execStc at h
  rcases withLocation_eq ind af s (storeAndClear s) with
    ⟨_, e⟩ | ⟨loc, hr, ⟨h0, e⟩ | ⟨h0, hs, e⟩ | ⟨h0, hs, e⟩⟩ <;> rw [e] at h
  · cases h
  · cases h; exact .inl ⟨loc, hr, .inl ⟨h0, rfl⟩⟩
  · cases h; exact .inl ⟨loc, hr, .inr ⟨h0, hs, rfl⟩⟩
  · obtain ⟨m, hm⟩ := Memory.write_isSome (enc16 (tc16 pullet16 s.acc)) hs
    simp only [storeAndClear, hm] at h
    cases h
    exact .inr ⟨loc, m, hr, h0, hm, rfl⟩

theorem branchTo_next {ind : Bool} {af : Addr} {s t : State} (h : branchTo ind af s = .next t) :
    ∃ loc, resolve ind af s = some loc ∧ t = s.setPc (loc.setWidth 16) := by
  rcases branchTo_eq ind af s with ⟨_, e⟩ | ⟨loc, hr, e⟩ <;> rw [e] at h
  · cases h
  · cases h; exact ⟨loc, hr, rfl⟩

theorem execBan_next {ind : Bool} {af : Addr} {s t : State} (h : execBan ind af s = .next t) :
    (tc16 pullet16 s.acc < 0 ∧ ∃ loc, resolve ind af s = some loc ∧ t = s.setPc (loc.setWidth 16)) ∨
    (¬ tc16 pullet16 s.acc < 0 ∧ t = s.setPc (s.pc + 1#16)) := by
  unfold execBan at h
  split at h
  · rename_i hn
    exact .inl ⟨of_decide_eq_true hn, branchTo_next h⟩
  · rename_i hn
    cases h
    exact .inr ⟨fun hc => hn (decide_eq_true hc), rfl⟩

theorem execRd_next {s t : State} (h : execRd s = .next t) :
    (s.input.length ≤ s.inPos ∧ t = s.setRun (.fatal .inputExhausted none)) ∨
    (∃ n, s.input[s.inPos]? = some (.val n) ∧ t = (s.consumeItem.setAcc (enc16 n)).setPc (s.pc + 1#16)) ∨
    (s.input[s.inPos]? = some .malformed ∧
      t = (s.consumeItem.countDraw.setAcc (Config.freeWord s.draws)).setPc (s.pc + 1#16)) := by
  unfold execRd State.nextItem at h
  split at h
  · rename_i hi
    cases h
    exact .inl ⟨List.getElem?_eq_none_iff.1 hi, rfl⟩
  · rename_i n hi
    cases h
    exact .inr (.inl ⟨n, hi, rfl⟩)
  · rename_i hi
    cases h
    exact .inr (.inr ⟨hi, rfl⟩)

/-- Everything exec can do when it answers a next state, for all instructions at once. -/
theorem exec_next {i : Instr} {s t : State} (h : exec i s = .next t) :
    (∃ ind af, dataOperands i = some (ind, af) ∧ TurnedAway ind af s t) ∨
    (∃ ind af loc m v, dataOperands i = some (ind, af) ∧ (∀ x y, i ≠ .stc x y) ∧ resolve ind af s = some loc ∧
      loc ≠ 0#12 ∧ s.mem.read loc.toNat = some m ∧ t = (s.setAcc v).setPc (s.pc + 1#16)) ∨
    (∃ ind af loc m, i = .stc ind af ∧ resolve ind af s = some loc ∧ loc ≠ 0#12 ∧
      s.mem.write loc.toNat (enc16 (tc16 pullet16 s.acc)) = some m ∧
      t = ((s.setMem m).setAcc 0#16).setPc (s.pc + 1#16)) ∨
    (∃ ind af loc, (i = .br ind af ∨ (i = .ban ind af ∧ tc16 pullet16 s.acc < 0)) ∧ resolve ind af s = some loc ∧
      t = s.setPc (loc.setWidth 16)) ∨
    (((∃ ind af, i = .ban ind af ∧ ¬ tc16 pullet16 s.acc < 0) ∨
      i ∈ [Instr.nop000, .nop100, .nop101, .nop110, .nop111]) ∧ t = s.setPc (s.pc + 1#16)) ∨
    (i = .rd ∧ s.input.length ≤ s.inPos ∧ t = s.setRun (.fatal .inputExhausted none)) ∨
    (i = .rd ∧ s.inPos < s.input.length ∧
      ∃ v d, t = ({ s.consumeItem with draws := d }.setAcc v).setPc (s.pc + 1#16)) ∨
    (i = .wrt ∧ t = (s.emit ⟨tc16 pullet16 s.acc, s.acc⟩).setPc (s.pc + 1#16)) ∨
    (i = .stp ∧ t = s.setRun .halted) := by
  have data {ind af} {f : Word → Word} (hd : dataOperands i = some (ind, af)) (hn : ∀ x y, i ≠ Instr.stc x y)
      (h : withOperand pullet16 ind af s (fun m => advance (s.setAcc (f m))) = .next t) :
      (∃ ind af, dataOperands i = some (ind, af) ∧ TurnedAway ind af s t) ∨
      (∃ ind af loc m v, dataOperands i = some (ind, af) ∧ (∀ x y, i ≠ Instr.stc x y) ∧ resolve ind af s = some loc ∧
        loc ≠ 0#12 ∧ s.mem.read loc.toNat = some m ∧ t = (s.setAcc v).setPc (s.pc + 1#16)) := by
    rcases withOperand_next h with ha | ⟨loc, m, hr, h0, hm, ht⟩
    · exact .inl ⟨ind, af, hd, ha⟩
    · exact .inr ⟨ind, af, loc, m, f m, hd, hn, hr, h0, hm, ht⟩
  have lift {P Q R : Prop} (hpq : P ∨ Q) : P ∨ Q ∨ R := hpq.imp_right .inl
  cases i with
  | add ind af => exact lift (data rfl (by simp) h)
  | and ind af => exact lift (data rfl (by simp) h)
  | sub ind af => exact lift (data rfl (by simp) h)
  | ld ind af => exact lift (data rfl (by simp) h)
  | stc ind af =>
    rcases execStc_next h with ha | ⟨loc, m, hr, h0, hm, ht⟩
    · exact .inl ⟨ind, af, rfl, ha⟩
    · exact .inr (.inr (.inl ⟨ind, af, loc, m, rfl, hr, h0, hm, ht⟩))
  | br ind af =>
    obtain ⟨loc, hr, ht⟩ := branchTo_next h
    exact .inr (.inr (.inr (.inl ⟨ind, af, loc, .inl rfl, hr, ht⟩)))
  | ban ind af =>
    rcases execBan_next h with ⟨hn, loc, hr, ht⟩ | ⟨hn, ht⟩
    · exact .inr (.inr (.inr (.inl ⟨ind, af, loc, .inr ⟨rfl, hn⟩, hr, ht⟩)))
    · exact .inr (.inr (.inr (.inr (.inl ⟨.inl ⟨ind, af, rfl, hn⟩, ht⟩))))
  | rd =>
    rcases execRd_next h with ⟨hi, ht⟩ | ⟨n, hi, ht⟩ | ⟨hi, ht⟩
    · simp [hi, ht]
    · have hlt : s.inPos < s.input.length := (List.getElem?_eq_some_iff.1 hi).1
      exact .inr (.inr (.inr (.inr (.inr (.inr (.inl ⟨rfl, hlt, _, s.draws, ht⟩))))))
    · have hlt : s.inPos < s.input.length := (List.getElem?_eq_some_iff.1 hi).1
      exact .inr (.inr (.inr (.inr (.inr (.inr (.inl ⟨rfl, hlt, _, s.draws + 1, ht⟩))))))
  | wrt => cases h; simp
  | stp => cases h; simp
  | nop000 => cases h; simp
  | nop100 => cases h; simp
  | nop101 => cases h; simp
  | nop110 => cases h; simp
  | nop111 => cases h; simp

end Sys2Proof.Machine
end

