-- ==== Sys2Proof/Laws/PerInstr.lean ====
section
/-! SUPPORT. A fact about every instruction as syntax: the row of 30_encoding.md R71 its word matches. -/

namespace Sys2Proof.Laws.RowMatch

/-- The mask of an instruction's row (R71). -/
def mask : Instr → Word
  | .ban _ _ | .sub _ _ | .stc _ _ | .and _ _ | .add _ _ | .ld _ _ | .br _ _ => 0xE000#16
  | .rd | .stp | .wrt | .nop000 | .nop100 | .nop101 | .nop110 | .nop111 => 0xE007#16

/-- The match of an instruction's row (R71). -/
def pattern : Instr → Word
  | .ban _ _ => 0x0000#16
  | .sub _ _ => 0x2000#16
  | .stc _ _ => 0x4000#16
  | .and _ _ => 0x6000#16
  | .add _ _ => 0x8000#16
  | .ld _ _ => 0xA000#16
  | .br _ _ => 0xC000#16
  | .rd => 0xE001#16
  | .stp => 0xE002#16
  | .wrt => 0xE003#16
  | .nop000 => 0xE000#16
  | .nop100 => 0xE004#16
  | .nop101 => 0xE005#16
  | .nop110 => 0xE006#16
  | .nop111 => 0xE007#16

/-- The row word of the instruction lies in the instruction's row. -/
def Statement (i : Instr) : Prop := rowWord i &&& mask i = pattern i

/-- The mask of an addressed row keeps the mnemonic code alone. -/
theorem assemble_mask (mn : Code) (ind : Bool) (af : Addr) :
    assemble .mnFirst mn ind af &&& 0xE000#16 = mn ++ 0#13 := by
  have hm : ∀ k, k < 16 → (0xE000#16).getLsbD k = decide (13 ≤ k) := by decide
  apply BitVec.eq_of_getLsbD_eq
  intro j hj
  rw [BitVec.getLsbD_and, hm j hj]
  simp only [assemble, BitVec.getLsbD_append, BitVec.getLsbD_zero]
  by_cases h : j < 13
  · simp [h]
  · have h12 : ¬ j < 12 := by omega
    have h1 : ¬ j - 12 < 1 := by omega
    have h13 : 13 ≤ j := by omega
    simp [h12, h1, h, h13, Nat.sub_sub]

theorem ban (ind : Bool) (af : Addr) : Statement (.ban ind af) := assemble_mask 0b000 ind af
theorem sub (ind : Bool) (af : Addr) : Statement (.sub ind af) := assemble_mask 0b001 ind af
theorem stc (ind : Bool) (af : Addr) : Statement (.stc ind af) := assemble_mask 0b010 ind af
theorem and (ind : Bool) (af : Addr) : Statement (.and ind af) := assemble_mask 0b011 ind af
theorem add (ind : Bool) (af : Addr) : Statement (.add ind af) := assemble_mask 0b100 ind af
theorem ld (ind : Bool) (af : Addr) : Statement (.ld ind af) := assemble_mask 0b101 ind af
theorem br (ind : Bool) (af : Addr) : Statement (.br ind af) := assemble_mask 0b110 ind af
theorem rd : Statement .rd := rfl
theorem stp : Statement .stp := rfl
theorem wrt : Statement .wrt := rfl
theorem nop000 : Statement .nop000 := rfl
theorem nop100 : Statement .nop100 := rfl
theorem nop101 : Statement .nop101 := rfl
theorem nop110 : Statement .nop110 := rfl
theorem nop111 : Statement .nop111 := rfl

end Sys2Proof.Laws.RowMatch
end

