-- ==== Sys2Proof/Tests/Slice0.lean ====
section
/-! SUPPORT. The model's own tests. Expected results are those of 95_test_vectors.md or of the worked examples of the
instruction rules; words are written out bit by bit from the encodings of 30_encoding.md R71. The `witness_` theorems show
that the hypotheses of each obligation can be met, clause by clause. -/

namespace Sys2Proof.Tests

open Sys2Proof.Machine

/-- A RUNNING machine with the given PC, ACC, memory words and input. -/
def machine (pc acc : Word) (words : List Word) (input : List InItem) : State :=
  { State.boot words input with pc := pc, acc := acc }

/-- The next state, if there is one. -/
def nextOf (r : Result) : Option State :=
  match r with
  | .next s => some s
  | .fault _ => none
  | .refused _ => none

/-- PC, ACC and RUN after one step, as 95_test_vectors.md writes a state. -/
def after (s : State) : Option (Word × Word × RunState) := (nextOf (step s)).map fun t => (t.pc, t.acc, t.run)

/-- A word of memory after one step. -/
def wordAfter (s : State) (a : Nat) : Option Word := (nextOf (step s)).bind fun t => t.mem.read a

/-! ### Well-formedness -/

/-- An OPMAP without the code of ADD. -/
def withoutAdd : Config := { pullet16 with opMap := fun k => if k = 0b100#3 then none else pullet16OpMap k }

theorem test_illformed_instruction_refused : (Instr.add false 1#12).wellFormed withoutAdd = false := by decide
theorem test_illformed_opmap_refused : withoutAdd.wellFormed = false := by decide
theorem test_opmap_of_this_machine_accepted : pullet16.wellFormed = true := by decide
theorem test_other_instruction_still_accepted : (Instr.sub false 1#12).wellFormed withoutAdd = true := by decide
theorem test_item_out_of_range_refused : (InItem.val 65536).wf = false := by decide
theorem test_memory_zero_entry_refused : ({ size := 4, cells := [(1, 0#16)] } : Memory).wf = false := by decide
theorem test_memory_unsorted_refused : ({ size := 4, cells := [(2, 1#16), (1, 1#16)] } : Memory).wf = false := by decide
theorem test_memory_beyond_size_refused : ({ size := 4, cells := [(4, 1#16)] } : Memory).wf = false := by decide

/-! ### Decoding, one word per constructor (R71) -/

theorem test_decode_ban : decode 0b0001001000110100#16 = .ban true 0b001000110100#12 := by decide
theorem test_decode_sub : decode 0b0010000000000100#16 = .sub false 4#12 := by decide
theorem test_decode_stc : decode 0b0101000000000001#16 = .stc true 1#12 := by decide
theorem test_decode_and : decode 0b0110000000000100#16 = .and false 4#12 := by decide
theorem test_decode_add : decode 0b1001101010111100#16 = .add true 0b101010111100#12 := by decide
theorem test_decode_ld : decode 0b1010000000000011#16 = .ld false 3#12 := by decide
theorem test_decode_br : decode 0b1101000000000001#16 = .br true 1#12 := by decide
theorem test_decode_rd : decode 0b1111111111111001#16 = .rd := by decide
theorem test_decode_stp : decode 0b1110111111111010#16 = .stp := by decide
theorem test_decode_wrt : decode 0b1110000000000011#16 = .wrt := by decide
theorem test_decode_nop000 : decode 0b1110000000001000#16 = .nop000 := by decide
theorem test_decode_nop100 : decode 0b1110000000000100#16 = .nop100 := by decide
theorem test_decode_nop101 : decode 0b1110000000000101#16 = .nop101 := by decide
theorem test_decode_nop110 : decode 0b1110000000000110#16 = .nop110 := by decide
theorem test_decode_nop111 : decode 0b1111111111111111#16 = .nop111 := by decide

/-- The other layout of R60: ind in bit 15, mn in bits 14:12. -/
theorem test_decode_other_layout :
    decodeWith { pullet16 with layout := .indFirst } 0b1100000000000001#16 = .add true 1#12 := by decide

theorem test_decode_empty_stream : decodeStream [] = .error .emptyStream := rfl
theorem test_table_word : decodeTableWord 16 0xE003 = some .wrt := by decide
theorem test_encode_canonical : [encode .rd, encode .stp, encode .wrt, encode (.add true 5#12)] =
    [some 0xE001#16, some 0xE002#16, some 0xE003#16, some 0x9005#16] := by decide
theorem test_noop_has_no_encoding : (encode (decode 0xE000#16), encode (decode 0xE007#16)) = (none, none) := by decide
theorem test_noop_row_word : rowWord (decode 0xFFFF#16) = 0xE007#16 := by decide

/-! ### Instructions (95_test_vectors.md section 2) -/

theorem test_add_wraps : after (machine 3 0x8000 [0, 0x8000, 0, 0x8001] []) = some (4, 0, .running) := by decide
theorem test_add_own_word : after (machine 3 1 [0, 0, 0, 0x8003] []) = some (4, 0x8004, .running) := by decide
theorem test_and : after (machine 3 0x0F0F [0, 0xE002, 0, 0x6001] []) = some (4, 2, .running) := by decide
theorem test_sub_twelve_bits : after (machine 3 0x8000 [0, 0xFFFF, 0, 0x2001] []) = some (4, 0x7001, .running) := by
  decide
theorem test_sub_borrow : after (machine 3 0 [0, 1, 0, 0x2001] []) = some (4, 0xFFFF, .running) := by decide
theorem test_ld_upper_bits_lost : after (machine 3 0xFFFF [0, 0x1ABC, 0, 0xA001] []) = some (4, 0x0ABC, .running) := by
  decide
theorem test_ld_forward_is_fatal :
    after (machine 0 0 [0xA001, 5] []) = some (0, 0, .fatal .addressOutOfBounds (some 0)) := by decide
theorem test_stc_indirect : wordAfter (machine 3 7 [0, 6, 0, 0x5001, 0, 0, 0, 0] []) 6 = some 7 := by decide
theorem test_stc_unloaded :
    after (machine 3 7 [0, 9, 0, 0x5001, 0, 0, 0, 0] []) = some (3, 7, .fatal .unloadedAccess (some 9)) := by decide
theorem test_br_forward_goes_to_zero :
    after (machine 5 1 [0, 0, 0, 0, 0, 0xC006, 0, 0] []) = some (0, 1, .running) := by decide
theorem test_br_indirect_forward :
    after (machine 5 1 [0, 0, 0x0FFF, 0, 0, 0xD002, 0, 0] []) = some (4095, 1, .running) := by decide
theorem test_ban_8000_not_taken :
    after (machine 5 0x8000 [0, 0, 0, 0, 0, 3, 0, 0] []) = some (6, 0x8000, .running) := by decide
theorem test_ban_8001_taken :
    after (machine 5 0x8001 [0, 0, 0, 0, 0, 3, 0, 0] []) = some (3, 0x8001, .running) := by decide
theorem test_rd_negative : after (machine 0 9 [0xE001] [.val (-65535)]) = some (1, 1, .running) := by decide
theorem test_rd_malformed_goes_on :
    (nextOf (step (machine 0 9 [0xE001] [.malformed]))).map (fun t => (t.pc, t.inPos, t.draws, t.run)) =
      some (1, 1, 1, .running) := by decide
theorem test_wrt_8000 :
    (nextOf (step (machine 0 0x8000 [0xE003] []))).map (fun t => t.out) = some [⟨32768, 0x8000⟩] := by decide
theorem test_stp : after (machine 3 0x1234 [0, 0, 0, 0xE002, 0] []) = some (3, 0x1234, .halted) := by decide
theorem test_nop000 : after (machine 3 0x1234 [0, 0, 0, 0xE000, 0] []) = some (4, 0x1234, .running) := by decide
theorem test_nop100 : after (machine 0 7 [0xE004] []) = some (1, 7, .running) := by decide
theorem test_nop101 : after (machine 0 7 [0xE005] []) = some (1, 7, .running) := by decide
theorem test_nop110 : after (machine 0 7 [0xE006] []) = some (1, 7, .running) := by decide
theorem test_nop111 : after (machine 0 7 [0xFFFF] []) = some (1, 7, .running) := by decide

/-! ### The step, reset and the host -/

theorem test_run_off_the_end : after (machine 8 0x1234 [0, 0, 0, 0, 0, 0, 0, 0] []) = some (8, 0x1234, .halted) := by
  decide
theorem test_pc_out_of_range :
    after (machine 4096 0 [0] []) = some (4096, 0, .fatal .pcOutOfRange (some 4096)) := by decide
theorem test_reset_halts_at_once : after State.reset = some (0, 0, .halted) := by decide
theorem test_no_step_when_halted : nextOf (step { machine 3 0 [0, 0, 0, 0] [] with run := .halted }) = none := by decide
theorem test_fetch_word_runs_first : after (State.reset.withFetchWord 16 0xE005) = some (1, 0, .running) := by decide
theorem test_boot_of_nothing_is_reset : State.boot [] [] = State.reset := rfl
theorem test_token_negative : itemOfToken ['-', '0', '0', '0', '3'] = .val (-3) := by decide
theorem test_token_malformed : itemOfToken ['+', '0', '0', 'G', '1'] = .malformed := by decide
theorem test_write_keeps_order :
    (Memory.load [0, 5, 0, 6]).write 2 9#16 = some ⟨4, [(1, 5#16), (2, 9#16), (3, 6#16)]⟩ := by decide
theorem test_write_zero_removes : (Memory.load [0, 5, 0, 6]).write 1 0#16 = some ⟨4, [(3, 6#16)]⟩ := by decide

/-! ### Witnesses: the hypotheses of the obligations can be met -/

/-- Resolve and CheckAccess of the examples of R91: PC = 5, MEMSIZE = 16. -/
def r91 : State := machine 5 0 [7, 0, 9, 0xF000, 0x6FFF, 0, 0, 0, 0, 0x1111, 0, 0, 0, 0, 0, 0] []

theorem witness_SignedViewThreshold_at_most : (0x8000#16).toNat ≤ 32768 := by decide
theorem witness_SignedViewThreshold_above : 32768 < (0x8001#16).toNat := by decide
theorem witness_DecodeOfEncodeEveryConfiguration_row_word :
    rowWordWith { withoutAdd with layout := .indFirst } .nop111 = some 0x7007#16 := by decide
theorem witness_DecodeOfEncodeEveryConfiguration :
    encodeWith { withoutAdd with layout := .indFirst } (.br true 0xFFF#12) = some 0xEFFF#16 := by decide
theorem witness_RowsDecideTheInstruction :
    0x1FFF#16 &&& 0xE000#16 = 0x0000#16 ∧ 0x3FFF#16 &&& 0xE000#16 = 0x2000#16 ∧
    0x5FFF#16 &&& 0xE000#16 = 0x4000#16 ∧ 0x7FFF#16 &&& 0xE000#16 = 0x6000#16 ∧
    0x9FFF#16 &&& 0xE000#16 = 0x8000#16 ∧ 0xBFFF#16 &&& 0xE000#16 = 0xA000#16 ∧
    0xDFFF#16 &&& 0xE000#16 = 0xC000#16 ∧ 0xFFF9#16 &&& 0xE007#16 = 0xE001#16 ∧
    0xFFFA#16 &&& 0xE007#16 = 0xE002#16 ∧ 0xFFFB#16 &&& 0xE007#16 = 0xE003#16 ∧
    0xFFF8#16 &&& 0xE007#16 = 0xE000#16 ∧ 0xFFFC#16 &&& 0xE007#16 = 0xE004#16 ∧
    0xFFFD#16 &&& 0xE007#16 = 0xE005#16 ∧ 0xFFFE#16 &&& 0xE007#16 = 0xE006#16 ∧
    0xFFFF#16 &&& 0xE007#16 = 0xE007#16 := by decide
theorem witness_SubCodeSelects :
    ([0xE000#16, 0xE001#16, 0xE002#16, 0xE003#16, 0xE004#16, 0xE005#16, 0xE006#16, 0xFFFF#16].map
      fun w => (pullet16.opMap (fieldMn pullet16.layout w), w.toNat % 8)) =
      [(some .extended, 0), (some .extended, 1), (some .extended, 2), (some .extended, 3), (some .extended, 4),
        (some .extended, 5), (some .extended, 6), (some .extended, 7)] := by decide
theorem witness_UnrecognisedCodeIsANoOp : withoutAdd.opMap (fieldMn withoutAdd.layout 0x8001#16) = none := by decide
theorem witness_ResolveFollowsTheGuard_forward : r91.pc.toNat < (6#12 : Addr).toNat := by decide
theorem witness_ResolveFollowsTheGuard_direct : (5#12 : Addr).toNat ≤ r91.pc.toNat := by decide
theorem witness_ResolveFollowsTheGuard_indirect :
    (4#12 : Addr).toNat ≤ r91.pc.toNat ∧ r91.mem.read (4#12 : Addr).toNat = some 0x6FFF#16 := by decide
theorem witness_FetchedInstructionsResolve : r91.pc.toNat < r91.mem.size := by decide
theorem witness_ForwardReferencesLandAtZero :
    (machine 5 0x8001 [0, 0, 0, 0, 0, 6] []).pc.toNat < (6#12 : Addr).toNat ∧
    tc16 pullet16 (machine 5 0x8001 [0, 0, 0, 0, 0, 6] []).acc < 0 := by decide
theorem witness_DataAccessesAreValidated_zero : resolve true 3#12 r91 = some 0#12 := by decide
theorem witness_DataAccessesAreValidated_unloaded :
    resolve true 4#12 r91 = some 4095#12 ∧ (4095#12 : Addr) ≠ 0#12 ∧ r91.mem.size ≤ (4095#12 : Addr).toNat := by decide
theorem witness_DataAccessesAreValidated_first_unloaded :
    resolve true 1#12 (machine 1 0 [0, 2] []) = some 2#12 ∧ (2#12 : Addr) ≠ 0#12 ∧
    (machine 1 0 [0, 2] []).mem.size ≤ (2#12 : Addr).toNat := by decide
theorem witness_AddressOutOfBounds_raised :
    dataOperands (.stc true 3#12) = some (true, 3#12) ∧ resolve true 3#12 r91 = some 0#12 ∧
    ¬ (0 < (0#12 : Addr).toNat ∧ (0#12 : Addr).toNat ≤ 4095) := by decide
theorem witness_AddressOutOfBounds_forward :
    dataOperands (.ld false 6#12) = some (false, 6#12) ∧ r91.pc.toNat < (6#12 : Addr).toNat := by decide
theorem witness_AddressOutOfBounds_direct : dataOperands (.ld false 0#12) = some (false, 0#12) := by decide
theorem witness_AddressOutOfBounds_pointer :
    dataOperands (.ld true 3#12) = some (true, 3#12) ∧ r91.mem.read (3#12 : Addr).toNat = some 0xF000#16 ∧
    (0xF000#16).toNat % 4096 = 0 := by decide
theorem witness_AddressOutOfBounds_other :
    dataOperands (.br false 0#12) = none ∧ r91.run = .running ∧
    nextOf (exec (.br false 0#12) r91) = some { r91 with pc := 0#16 } := by decide
theorem witness_AddressOutOfBounds_by_a_step :
    (nextOf (step (machine 0 0 [0x8000] []))).map (fun t => t.run) = some (.fatal .addressOutOfBounds (some 0)) := by
  decide

/-- An instruction that completes on an operand: ADD, AND, SUB, LD through the pointer at 2 of the example of R91. -/
theorem witness_operand_effects :
    resolve true 2#12 r91 = some 9#12 ∧ (9#12 : Addr) ≠ 0#12 ∧ r91.mem.read (9#12 : Addr).toNat = some 0x1111#16 := by
  decide
theorem witness_operand_effects_last_word :
    resolve true 1#12 (machine 1 0 [0, 2, 5] []) = some 2#12 ∧ (2#12 : Addr) ≠ 0#12 ∧
    (machine 1 0 [0, 2, 5] []).mem.read (2#12 : Addr).toNat = some 5#16 := by decide
theorem witness_StcEffect :
    resolve false 5#12 r91 = some 5#12 ∧ (5#12 : Addr) ≠ 0#12 ∧ (5#12 : Addr).toNat < r91.mem.size := by decide
theorem witness_BrEffect : resolve true 4#12 r91 = some 4095#12 := by decide
theorem witness_BanEffect_taken :
    0x8001 ≤ (machine 5 0x8001 [0, 0, 0, 0, 0, 3] []).acc.toNat ∧
    resolve false 3#12 (machine 5 0x8001 [0, 0, 0, 0, 0, 3] []) = some 3#12 := by decide
theorem witness_BanEffect_not_taken : (machine 5 0x8000 [0, 0, 0, 0, 0, 3] []).acc.toNat ≤ 0x8000 := by decide
theorem witness_RdEffect_value :
    (machine 0 0 [0xE001] [.val 65535]).input[(machine 0 0 [0xE001] [.val 65535]).inPos]? = some (.val 65535) := by decide
theorem witness_RdEffect_malformed :
    (machine 0 0 [0xE001] [.malformed]).input[(machine 0 0 [0xE001] [.malformed]).inPos]? = some .malformed := by decide
theorem witness_ReadPastInputIsFatal :
    (machine 0 0 [0xE001] []).inPos = (machine 0 0 [0xE001] []).input.length := by decide
theorem witness_NopEffect :
    Instr.nop101 ∈ [Instr.nop000, .nop100, .nop101, .nop110, .nop111] ∧
    (machine 0 7 [0xFFFD] []).run = .running ∧ (machine 0 7 [0xFFFD] []).pc.toNat ≤ 4095 ∧
    (machine 0 7 [0xFFFD] []).mem.read 0 = some 0xFFFD#16 ∧
    0xFFFD#16 &&& 0xE007#16 ∈ [0xE000#16, 0xE004#16, 0xE005#16, 0xE006#16, 0xE007#16] := by decide
theorem witness_WrtEffect :
    (machine 0 7 [0xE003] []).run = .running ∧ (machine 0 7 [0xE003] []).pc.toNat ≤ 4095 ∧
    (machine 0 7 [0xE003] []).mem.read 0 = some 0xE003#16 ∧ 0xE003#16 &&& 0xE007#16 = 0xE003#16 := by decide
theorem witness_StpEffect :
    (machine 0 7 [0xF002] []).run = .running ∧ (machine 0 7 [0xF002] []).pc.toNat ≤ 4095 ∧
    (machine 0 7 [0xF002] []).mem.read 0 = some 0xF002#16 ∧ 0xF002#16 &&& 0xE007#16 = 0xE002#16 := by decide
theorem witness_StepRunsTheDecodedInstruction :
    (machine 0 0 [0xE003] []).run = .running ∧ (machine 0 0 [0xE003] []).pc.toNat ≤ 4095 ∧
    (machine 0 0 [0xE003] []).mem.read (machine 0 0 [0xE003] []).pc.toNat = some 0xE003#16 := by decide
theorem witness_StepsWithoutAFetch_halts :
    (machine 4095 0 [0] []).run = .running ∧ (machine 4095 0 [0] []).pc.toNat ≤ 4095 ∧
    (machine 4095 0 [0] []).mem.size ≤ (machine 4095 0 [0] []).pc.toNat := by decide
theorem witness_StepsWithoutAFetch_halted : ({ State.reset with run := .halted } : State).run = .halted := rfl
theorem witness_StepsWithoutAFetch_fatal :
    ({ State.reset with run := .fatal .inputExhausted none } : State).run = .fatal .inputExhausted none := rfl
theorem witness_PcOutOfRange_raised :
    (machine 4096 0 [] []).run = .running ∧ 4095 < (machine 4096 0 [] []).pc.toNat := by decide
theorem witness_PcOutOfRange_programs : [0xC000#16].length ≤ 4095 := by decide
theorem witness_EndsOfRunsAreFinal_ended : ({ State.reset with run := .halted } : State).ended := by
  simp [State.ended]
theorem witness_EndsOfRunsAreFinal_normal : (runFor 1 State.reset).endedNormally := by
  show (runFor 1 State.reset).run = .halted
  decide
theorem witness_PcAfterAStep_running :
    nextOf (step (machine 0 0 [0xC000] [])) = some (machine 0 0 [0xC000] []) := by decide
theorem witness_PcAfterAStep_branch :
    decode 0xC000#16 = .br false 0#12 ∧ decode 0x0000#16 = .ban false 0#12 ∧ tc16 pullet16 0x8001#16 < 0 := by decide
theorem witness_PcAfterAStep_ends :
    (nextOf (step (machine 0 0 [0xE002] []))).map (fun t => t.run) = some .halted := by decide
theorem witness_FatalStepsChangeOnlyRun :
    (nextOf (step (machine 0 3 [0xE001] []))).map (fun t => t.run) = some (.fatal .inputExhausted none) := by decide
theorem witness_running_steps :
    (machine 0 3 [0xE001] []).run = .running ∧ (nextOf (step (machine 0 3 [0xE001] []))).isSome = true := by decide
theorem witness_StepKeepsTheInvariant :
    (machine 0 3 [0xE003] [.val 65535]).Inv ∧ (nextOf (step (machine 0 3 [0xE003] [.val 65535]))).isSome = true :=
  ⟨⟨by decide, by decide, by decide, by decide, by decide, by decide⟩, by decide⟩
theorem witness_ResetMeetsTheInvariant :
    [0xE001#16].length ≤ 4095 ∧ ∀ it ∈ [InItem.val (-65535), .val 65535, .malformed], it.wf = true := by decide
theorem witness_RunParametersNeverChange :
    (nextOf (exec (.stc false 1#12) (machine 1 7 [0, 0x4001] []))).isSome = true ∧
    (nextOf (step (machine 1 7 [0, 0x4001] []))).isSome = true ∧ (machine 1 7 [0, 0x4001] []).mem.read 2 = none := by
  decide
theorem witness_OnlyStcWritesMemory_others :
    (∀ (ind : Bool) (af : Addr), Instr.wrt ≠ .stc ind af) ∧
    (nextOf (exec .wrt (machine 0 7 [0xE003] []))).isSome = true :=
  ⟨fun _ _ => Instr.noConfusion, by decide⟩
theorem witness_OnlyStcWritesMemory_stc :
    resolve false 1#12 (machine 1 7 [0, 0x4001] []) = some 1#12 ∧
    (nextOf (exec (.stc false 1#12) (machine 1 7 [0, 0x4001] []))).isSome = true ∧ 0 ≠ (1#12 : Addr).toNat := by decide
theorem witness_AccumulatorReadersAndWriters :
    (nextOf (exec (.ban false 0#12) (machine 1 7 [0, 0] []))).isSome = true ∧
    (nextOf (exec (.br false 0#12) (machine 1 7 [0, 0] []))).isSome = true ∧
    (machine 1 7 [0, 0xA001] []).run = .running ∧
    (nextOf (exec (.ld false 1#12) (machine 1 7 [0, 0xA001] []))).map (fun t => t.run) = some .running ∧
    (nextOf (exec .rd (machine 0 7 [0xE001] [.val 1]))).map (fun t => t.run) = some .running := by decide
theorem witness_PortStateIsTouchedOnlyByItsInstruction :
    (machine 0 7 [0xE001] [.val 1]).run = .running ∧
    (nextOf (exec .rd (machine 0 7 [0xE001] [.val 1]))).map (fun t => t.run) = some .running ∧
    (nextOf (exec .wrt (machine 0 7 [0xE003] []))).isSome = true ∧ Instr.wrt ≠ .rd := by decide
theorem witness_StoredWordsAreFetched :
    r91.run = .running ∧ resolve false 5#12 r91 = some 5#12 ∧ (5#12 : Addr) ≠ 0#12 ∧
    (5#12 : Addr).toNat < r91.mem.size ∧ (nextOf (exec (.stc false 5#12) r91)).isSome = true := by decide
theorem witness_StcThenLdKeepsTwelveBits :
    (5#12 : Addr) ≠ 0#12 ∧ (5#12 : Addr).toNat ≤ r91.pc.toNat ∧ (5#12 : Addr).toNat < r91.mem.size ∧
    r91.pc.toNat < 65535 := by decide
theorem witness_SelfBranchesHang_br :
    (machine 0 0 [0xC000] []).run = .running ∧ (machine 0 0 [0xC000] []).mem.read 0 = some 0xC000#16 ∧
    (0#12 : Addr).toNat = (machine 0 0 [0xC000] []).pc.toNat ∧ decode 0xC000#16 = .br false 0#12 := by decide
theorem witness_SelfBranchesHang_ban :
    (machine 1 0x8001 [0, 1] []).run = .running ∧ (machine 1 0x8001 [0, 1] []).mem.read 1 = some 1#16 ∧
    (1#12 : Addr).toNat = (machine 1 0x8001 [0, 1] []).pc.toNat ∧ decode 1#16 = .ban false 1#12 ∧
    0x8001 ≤ (machine 1 0x8001 [0, 1] []).acc.toNat := by decide
theorem witness_CanonicalMemoriesAreEqual :
    (Memory.load [0, 5]).wf = true ∧ (⟨2, [(1, 5#16)]⟩ : Memory).wf = true ∧
    (Memory.load [0, 5]).size = (⟨2, [(1, 5#16)]⟩ : Memory).size ∧
    Memory.load [0, 5] = ⟨2, [(1, 5#16)]⟩ := by decide
theorem witness_InputTokens : itemOfToken ['+', 'F', 'F', 'F', 'F'] = .val 65535 ∧
    itemOfToken ['-', 'F', 'F', 'F', 'F'] = .val (-65535) ∧
    itemOfToken ['-', 'F', 'F', 'F', 'F'] ≠ .malformed := by decide

end Sys2Proof.Tests
end

section
/-! PROOFS. The encoding of integers and the signed view of patterns (00_scope.md R9, R10). -/

namespace Sys2Proof.Machine

/-- R10, first sentence. -/
theorem enc16_toNat (n : Int) : ((enc16 n).toNat : Int) = n % 65536 := by
  have hnonneg : 0 ≤ n % 65536 := Int.emod_nonneg n (by decide)
  simpa [enc16, BitVec.toNat_ofInt] using hnonneg

/-- The signed view shifts a pattern by 0 or by 65536, whatever the threshold, so modulo 65536 it is the pattern. -/
theorem tc16_emod (c : Config) (v : Word) : tc16 c v % 65536 = (v.toNat : Int) := by
  have hlt : v.toNat < 65536 := v.isLt
  unfold tc16
  split
  case isTrue => omega
  case isFalse => omega

/-- R10, second sentence: both sides are below 65536 and agree modulo 65536. -/
@[simp] theorem enc16_tc16 (c : Config) (v : Word) : enc16 (tc16 c v) = v := by
  have h : ((enc16 (tc16 c v)).toNat : Int) = (v.toNat : Int) := (enc16_toNat _).trans (tc16_emod c v)
  exact BitVec.eq_of_toNat_eq (Int.ofNat_inj.mp h)

/-- Settles O1, by the value of `enc16` modulo 65536 and the residue of the signed view. -/
theorem encodingReducesAndRoundTrips : Obligations.EncodingReducesAndRoundTrips :=
  ⟨enc16_toNat, enc16_tc16⟩

end Sys2Proof.Machine
end

section
/-! PROOFS. What no instruction, step or run changes: MEMSIZE, IN and, outside RD and WRT, the two ports (10_state.md R21,
R32). -/

namespace Sys2Proof.Machine

theorem TurnedAway.eq_setRun {ind : Bool} {af : Addr} {s t : State} (h : TurnedAway ind af s t) :
    ∃ r, t = s.setRun r := by
  obtain ⟨loc, -, ⟨-, ht⟩ | ⟨-, -, ht⟩⟩ := h
  · exact ⟨_, ht⟩
  · exact ⟨_, ht⟩

/-- The frame every instruction has: MEMSIZE and IN are kept, INPOS outside RD and OUT outside WRT. -/
theorem exec_frame {i : Instr} {s t : State} (h : exec i s = .next t) :
    t.mem.size = s.mem.size ∧ t.input = s.input ∧ (i ≠ .rd → t.inPos = s.inPos) ∧ (i ≠ .wrt → t.out = s.out) := by
  rcases exec_next h with ⟨ind, af, -, haway⟩ | ⟨ind, af, loc, m, v, -, -, -, -, -, rfl⟩ |
    ⟨ind, af, loc, m, -, -, -, hwrite, rfl⟩ | ⟨ind, af, loc, -, -, rfl⟩ | ⟨-, rfl⟩ | ⟨-, -, rfl⟩ |
    ⟨hrd, -, v, d, rfl⟩ | ⟨hwrt, rfl⟩ | ⟨-, rfl⟩
  · obtain ⟨r, rfl⟩ := haway.eq_setRun
    simp
  · simp
  · obtain ⟨-, hsize, -⟩ := Memory.write_spec hwrite
    simp [hsize]
  · simp
  · simp
  · simp
  · simp [hrd]
  · simp [hwrt]
  · simp

/-- A step runs the instruction at PC; one that runs none writes RUN alone. -/
theorem step_next {s t : State} (h : step s = .next t) :
    (∃ r, t = s.setRun r) ∨ ∃ w, s.mem.read s.pc.toNat = some w ∧ exec (decode w) s = .next t := by
  rcases step_running (running_of_step h) with ⟨-, e⟩ | ⟨-, -, e⟩ | ⟨w, -, hw, e⟩ <;> rw [e] at h
  · cases h; exact .inl ⟨_, rfl⟩
  · cases h; exact .inl ⟨_, rfl⟩
  · exact .inr ⟨w, hw, h⟩

/-- The induction over a run: what relates a state to itself, and is handed back over one step, relates the start of
every run to its end. -/
theorem runFor_induction {R : State → State → Prop} (hrefl : ∀ s, R s s)
    (hstep : ∀ s t u, step s = .next t → R t u → R s u) (k : Nat) (s : State) : R s (runFor k s) := by
  induction k generalizing s with
  | zero => exact hrefl s
  | succ k ih =>
    unfold runFor
    split
    · rename_i t ht
      exact hstep s t _ ht (ih t)
    · exact hrefl s
    · exact hrefl s

theorem step_parameters {s t : State} (h : step s = .next t) : t.mem.size = s.mem.size ∧ t.input = s.input := by
  rcases step_next h with ⟨r, rfl⟩ | ⟨w, -, he⟩
  · exact ⟨rfl, rfl⟩
  · obtain ⟨hsize, hinput, -⟩ := exec_frame he
    exact ⟨hsize, hinput⟩

theorem runFor_parameters (k : Nat) (s : State) :
    (runFor k s).mem.size = s.mem.size ∧ (runFor k s).input = s.input := by
  refine runFor_induction (R := fun s u => u.mem.size = s.mem.size ∧ u.input = s.input) (fun _ => ⟨rfl, rfl⟩) ?_ k s
  rintro s t u h ⟨hsize, hinput⟩
  obtain ⟨hsize', hinput'⟩ := step_parameters h
  exact ⟨hsize.trans hsize', hinput.trans hinput'⟩

/-- Settles O40, by the frame of every instruction, the three kinds of step and induction over the run; a word exists
exactly below MEMSIZE, so none appears. -/
theorem runParametersNeverChange : Obligations.RunParametersNeverChange := by
  refine ⟨fun i s t h => ?_, fun s t h => step_parameters h, runFor_parameters, fun s t a h hnone => ?_⟩
  · obtain ⟨hsize, hinput, -⟩ := exec_frame h
    exact ⟨hsize, hinput⟩
  · rw [Memory.read_eq_none, (step_parameters h).1]
    exact Memory.read_eq_none.1 hnone

/-! ### Edits of the state that an instruction does not see -/

/-- What a meaning answers, with its next state edited. -/
def onNext (g : State → State) : Result → Result
  | .next t => .next (g t)
  | .fault f => .fault f
  | .refused r => .refused r

/-- An edit of the state beside all that Resolve, CheckAccess and the ends of a step read and write. -/
structure BesideAddressing (g : State → State) : Prop where
  pc : ∀ s, (g s).pc = s.pc
  mem : ∀ s, (g s).mem = s.mem
  setPc : ∀ s v, (g s).setPc v = g (s.setPc v)
  setRun : ∀ s r, (g s).setRun r = g (s.setRun r)

section
variable {g : State → State} (hg : BesideAddressing g)
include hg

theorem advance_edit (s : State) : advance (g s) = onNext g (advance s) := by
  simp [onNext, hg.pc, hg.setPc]

theorem raise_edit (cause : Cause) (info : Option Nat) (s : State) :
    raise cause info (g s) = onNext g (raise cause info s) := by
  simp [onNext, hg.setRun]

theorem halt_edit (s : State) : halt (g s) = onNext g (halt s) := by
  simp [onNext, hg.setRun]

theorem resolve_edit (ind : Bool) (af : Addr) (s : State) : resolve ind af (g s) = resolve ind af s :=
  resolve_congr (hg.pc s) (hg.mem s)

theorem branchTo_edit (ind : Bool) (af : Addr) (s : State) : branchTo ind af (g s) = onNext g (branchTo ind af s) := by
  simp only [branchTo, resolve_edit hg]
  cases resolve ind af s with
  | none => rfl
  | some loc => simp [onNext, hg.setPc]

theorem withLocation_edit {c : Config} {ind : Bool} {af : Addr} {s : State} {k k' : Addr → Result}
    (hk : ∀ loc, k' loc = onNext g (k loc)) :
    withLocation c ind af (g s) k' = onNext g (withLocation c ind af s k) := by
  simp only [withLocation, resolve_edit hg, hg.mem]
  cases resolve ind af s with
  | none => rfl
  | some loc =>
    dsimp only
    cases checkAccess c s.mem.size loc.toNat with
    | none => exact hk loc
    | some cause => exact raise_edit hg cause _ s

theorem withOperand_edit {c : Config} {ind : Bool} {af : Addr} {s : State} {k k' : Word → Result}
    (hk : ∀ m, k' m = onNext g (k m)) :
    withOperand c ind af (g s) k' = onNext g (withOperand c ind af s k) := by
  refine withLocation_edit hg fun loc => ?_
  rw [hg.mem]
  cases s.mem.read loc.toNat with
  | none => rfl
  | some m => exact hk m

end

/-- An edit beside ACC, too, and beside the writing of MEM: what is left to it are the ports. -/
structure PortEdit (g : State → State) : Prop extends BesideAddressing g where
  acc : ∀ s, (g s).acc = s.acc
  setAcc : ∀ s v, (g s).setAcc v = g (s.setAcc v)
  setMem : ∀ s m, (g s).setMem m = g (s.setMem m)

section
variable {g : State → State} (hg : PortEdit g)
include hg

theorem advance_setAcc_edit (s : State) (v : Word) :
    advance ((g s).setAcc v) = onNext g (advance (s.setAcc v)) := by
  rw [hg.setAcc, advance_edit hg.toBesideAddressing]

theorem storeAndClear_edit (s : State) (loc : Addr) : storeAndClear (g s) loc = onNext g (storeAndClear s loc) := by
  simp only [storeAndClear, hg.mem, hg.acc]
  cases s.mem.write loc.toNat (enc16 (tc16 pullet16 s.acc)) with
  | none => rfl
  | some m =>
    dsimp only
    rw [hg.setMem, advance_setAcc_edit hg]

/-- No instruction but RD and WRT sees the ports: it does the same beside any edit of them (R32). -/
theorem exec_portEdit {i : Instr} (hrd : i ≠ .rd) (hwrt : i ≠ .wrt) (s : State) :
    exec i (g s) = onNext g (exec i s) := by
  have hb : BesideAddressing g := hg.toBesideAddressing
  have operand {ind : Bool} {af : Addr} (f : Word → Word → Word) :
      withOperand pullet16 ind af (g s) (fun m => advance ((g s).setAcc (f (g s).acc m))) =
        onNext g (withOperand pullet16 ind af s (fun m => advance (s.setAcc (f s.acc m)))) :=
    withOperand_edit hb fun m => by rw [hg.acc, advance_setAcc_edit hg]
  cases i with
  | add ind af => exact operand fun a m => enc16 (tc16 pullet16 a + tc16 pullet16 m)
  | and ind af => exact operand fun a m => a &&& m
  | sub ind af => exact operand fun a m => enc16 (tc16 pullet16 a - ((fieldAf m).toNat : Int))
  | ld ind af => exact operand fun _ m => (fieldAf m).setWidth 16
  | stc ind af => exact withLocation_edit hb (storeAndClear_edit hg s)
  | br ind af => exact branchTo_edit hb ind af s
  | ban ind af =>
    simp only [exec, execBan, hg.acc]
    split
    · exact branchTo_edit hb ind af s
    · exact advance_edit hb s
  | rd => exact absurd rfl hrd
  | wrt => exact absurd rfl hwrt
  | stp => exact halt_edit hb s
  | nop000 => exact advance_edit hb s
  | nop100 => exact advance_edit hb s
  | nop101 => exact advance_edit hb s
  | nop110 => exact advance_edit hb s
  | nop111 => exact advance_edit hb s

end

def State.setOut (o : List OutRecord) (s : State) : State := { s with out := o }
def State.setInPos (p : Nat) (s : State) : State := { s with inPos := p }

theorem portEdit_setOut (o : List OutRecord) : PortEdit (State.setOut o) where
  pc _ := rfl
  mem _ := rfl
  setPc _ _ := rfl
  setRun _ _ := rfl
  acc _ := rfl
  setAcc _ _ := rfl
  setMem _ _ := rfl

theorem portEdit_setInPos (p : Nat) : PortEdit (State.setInPos p) where
  pc _ := rfl
  mem _ := rfl
  setPc _ _ := rfl
  setRun _ _ := rfl
  acc _ := rfl
  setAcc _ _ := rfl
  setMem _ _ := rfl

/-- RD reads the input port alone: OUT is beside it. -/
theorem execRd_setOut (o : List OutRecord) (s : State) :
    execRd (s.setOut o) = onNext (State.setOut o) (execRd s) := by
  have hitem : (s.setOut o).nextItem = s.nextItem := rfl
  unfold execRd
  rw [hitem]
  rcases s.nextItem with _ | n | _
  · rfl
  · rfl
  · rfl

/-- All but WRT do the same to any OUT; RD's own case is `execRd_setOut`. -/
theorem exec_setOut {i : Instr} (hwrt : i ≠ .wrt) (o : List OutRecord) (s : State) :
    exec i (s.setOut o) = onNext (State.setOut o) (exec i s) := by
  by_cases hrd : i = .rd
  · subst hrd
    exact execRd_setOut o s
  · exact exec_portEdit (portEdit_setOut o) hrd hwrt s

/-- WRT appends its record wherever INPOS stands; the others but RD do not see the ports. -/
theorem exec_setInPos {i : Instr} (hrd : i ≠ .rd) (p : Nat) (s : State) :
    exec i (s.setInPos p) = onNext (State.setInPos p) (exec i s) := by
  by_cases hwrt : i = .wrt
  · subst hwrt
    rfl
  · exact exec_portEdit (portEdit_setInPos p) hrd hwrt s

/-- Whatever OUT was, an instruction does the same to all else; WRT's record does not depend on it. -/
theorem exec_next_setOut {i : Instr} {s t : State} (o : List OutRecord) (h : exec i s = .next t) :
    ∃ t', exec i (s.setOut o) = .next t' ∧ t' = t.setOut t'.out := by
  by_cases hwrt : i = .wrt
  · subst hwrt
    cases h
    exact ⟨_, rfl, rfl⟩
  · refine ⟨t.setOut o, ?_, rfl⟩
    rw [exec_setOut hwrt, h]
    rfl

theorem execRd_inPos {s t : State} (h : execRd s = .next t) (ht : t.run = .running) : t.inPos = s.inPos + 1 := by
  rcases execRd_next h with ⟨-, rfl⟩ | ⟨n, -, rfl⟩ | ⟨-, rfl⟩
  · simp at ht
  · simp
  · simp

/-- Settles O44, by the frame of every instruction and the edits of OUT and INPOS that it does not see. -/
theorem portStateIsTouchedOnlyByItsInstruction : Obligations.PortStateIsTouchedOnlyByItsInstruction := by
  refine ⟨fun s t _ h ht => execRd_inPos h ht, fun s t h => ?_, fun i s t hrd h => ?_, fun i s t hwrt h => ?_,
    fun i s t o h => exec_next_setOut o h, fun i s t p hrd h => ?_⟩
  · cases h
    exact ⟨_, rfl⟩
  · obtain ⟨-, -, hinPos, -⟩ := exec_frame h
    exact hinPos hrd
  · obtain ⟨-, -, -, hout⟩ := exec_frame h
    exact hout hwrt
  · have hedit : exec i (s.setInPos p) = onNext (State.setInPos p) (exec i s) := exec_setInPos hrd p s
    rw [h] at hedit
    exact hedit

end Sys2Proof.Machine
end

section
/-! PROOFS. What a data instruction and a branch do at a resolved location, and forward references, whose location is 0
(20_memory.md R47). -/

namespace Sys2Proof.Machine

/-- The five data instructions have one shape: what each does itself comes after Resolve and CheckAccess (R90). -/
theorem exec_data {i : Instr} {ind : Bool} {af : Addr} (hd : dataOperands i = some (ind, af)) (s : State) :
    ∃ k, exec i s = withLocation pullet16 ind af s k := by
  cases i with
  | add | and | sub | ld | stc => cases hd; exact ⟨_, rfl⟩
  | ban | br | rd | stp | wrt | nop000 | nop100 | nop101 | nop110 | nop111 => cases hd

theorem withLocation_of_resolve_zero {ind : Bool} {af : Addr} {s : State} (h : resolve ind af s = some 0#12)
    (k : Addr → Result) : withLocation pullet16 ind af s k = raise .addressOutOfBounds (some 0) s := by
  simp only [withLocation, h, checkAccess_addr]
  rfl

/-- A data instruction at location 0 is turned away before its effect, whichever of the five it is. -/
theorem exec_data_of_resolve_zero {i : Instr} {ind : Bool} {af : Addr} {s : State}
    (hd : dataOperands i = some (ind, af)) (h : resolve ind af s = some 0#12) :
    exec i s = .next (s.setRun (.fatal .addressOutOfBounds (some 0))) := by
  obtain ⟨k, hk⟩ := exec_data hd s
  rw [hk, withLocation_of_resolve_zero h, raise_eq]

theorem branchTo_of_resolve {ind : Bool} {af loc : Addr} {s : State} (h : resolve ind af s = some loc) :
    branchTo ind af s = .next (s.setPc (loc.setWidth 16)) := by
  simp only [branchTo, h]

theorem execBan_taken {s : State} (hneg : tc16 pullet16 s.acc < 0) (ind : Bool) (af : Addr) :
    execBan ind af s = branchTo ind af s :=
  if_pos (decide_eq_true hneg)

/-- Settles O13: a forward reference resolves to location 0, which CheckAccess refuses and a branch takes as it is. -/
theorem forwardReferencesLandAtZero : Obligations.ForwardReferencesLandAtZero := by
  intro ind af s hforward
  have hzero : resolve ind af s = some 0#12 := resolve_forward hforward
  have hbranch : branchTo ind af s = .next (s.setPc 0#16) := branchTo_of_resolve hzero
  refine ⟨fun i hi => ?_, hbranch, fun hneg => (execBan_taken hneg ind af).trans hbranch⟩
  have hdata : dataOperands i = some (ind, af) := by
    simp only [List.mem_cons, List.not_mem_nil, or_false] at hi
    rcases hi with rfl | rfl | rfl | rfl | rfl <;> rfl
  exact exec_data_of_resolve_zero hdata hzero

end Sys2Proof.Machine
end

section
/-! PROOFS. The sub-code selects the extended instruction (30_encoding.md R65). -/

namespace Sys2Proof.Machine

/-- The bit field read as arithmetic: the low three bits are the residue modulo 8. -/
theorem toNat_fieldSub3 (w : Word) : (fieldSub3 w).toNat = w.toNat % 8 := by
  rw [fieldSub3, BitVec.extractLsb'_toNat, Nat.shiftRight_zero]

theorem fieldSub3_eq_ofNat {w : Word} {k : Nat} (h : w.toNat % 8 = k) : fieldSub3 w = BitVec.ofNat 3 k := by
  rw [← h, ← toNat_fieldSub3, BitVec.ofNat_toNat, BitVec.setWidth_eq]

/-- Under the extended code, whichever code that is, the decoder consults nothing but the sub-code. -/
theorem decodeWith_of_extended {c : Config} {w : Word} (h : c.opMap (fieldMn c.layout w) = some .extended) :
    decodeWith c w = extendedInstr (fieldSub3 w) := by
  simp only [decodeWith, h]

/-- Settles O8, by the sub-code as the residue of the word modulo 8 and one row of SUBMAP for each residue. -/
theorem subCodeSelectsTheExtendedInstruction : Obligations.SubCodeSelectsTheExtendedInstruction := by
  intro c w hext
  have select {k : Nat} (hk : w.toNat % 8 = k) : decodeWith c w = extendedInstr (BitVec.ofNat 3 k) := by
    rw [decodeWith_of_extended hext, fieldSub3_eq_ofNat hk]
  exact ⟨select, select, select, select, select, select, select, select⟩

end Sys2Proof.Machine
end

section
/-! PROOFS. Resolution of an addressed instruction's location (40_fetch_decode_resolve.md R85). -/

namespace Sys2Proof.Machine

/-- The address field read as arithmetic: bits 11:0 are the residue modulo 4096. -/
theorem toNat_fieldAf (w : Word) : (fieldAf w).toNat = w.toNat % 4096 := by
  rw [fieldAf, BitVec.extractLsb'_toNat, Nat.shiftRight_zero]

/-- Under the guard an indirect field resolves to the address field of its pointer word. -/
theorem resolve_indirect_of_read {af : Addr} {s : State} {w : Word} (h : af.toNat ≤ s.pc.toNat)
    (hread : s.mem.read af.toNat = some w) : resolve true af s = some (fieldAf w) := by
  rw [resolve_indirect h, hread, Option.map_some]

/-- Settles O11, by one lemma for each of R85's three cases. -/
theorem resolveFollowsTheGuard : Obligations.ResolveFollowsTheGuard := by
  intro af s
  refine ⟨fun hforward _ => resolve_forward hforward, fun hguard => resolve_direct hguard, fun hguard w hread => ?_⟩
  exact ⟨fieldAf w, resolve_indirect_of_read hguard hread, toNat_fieldAf w⟩

end Sys2Proof.Machine
end

section
/-! PROOFS. The causes of a fatal condition that an instruction raises: AddressOutOfBounds (60_exceptions.md R141) and
InputExhausted (R142). -/

namespace Sys2Proof.Machine

theorem nextItem_eq_none {s : State} : s.nextItem = none ↔ s.input.length ≤ s.inPos :=
  List.getElem?_eq_none_iff

theorem execRd_of_no_item {s : State} (h : s.nextItem = none) :
    execRd s = .next (s.setRun (.fatal .inputExhausted none)) := by
  simp only [execRd, h, raise_eq]

/-- Settles O24: with INPOS at the length of IN there is no next item, and RD then writes RUN alone. -/
theorem readPastInputIsFatal : Obligations.ReadPastInputIsFatal := by
  intro s hend
  exact execRd_of_no_item (nextItem_eq_none.2 hend.ge)

/-- A 12-bit location reaches no further than KMAXMEMORY, so the range (0, KMAXMEMORY] leaves out 0 alone. -/
theorem addr_outside_iff {loc : Addr} : ¬ (0 < loc.toNat ∧ loc.toNat ≤ 4095) ↔ loc = 0#12 := by
  have hlt : loc.toNat < 4096 := loc.isLt
  rw [← BitVec.toNat_inj, BitVec.toNat_zero]
  omega

/-- R141's three ways to location 0. -/
theorem resolve_zero_of_cause {ind : Bool} {af : Addr} {s : State}
    (h : s.pc.toNat < af.toNat ∨ (ind = false ∧ af = 0#12) ∨
      (ind = true ∧ ∃ w : Word, s.mem.read af.toNat = some w ∧ w.toNat % 4096 = 0)) :
    resolve ind af s = some 0#12 := by
  rcases Nat.lt_or_ge s.pc.toNat af.toNat with hforward | hguard
  · exact resolve_forward hforward
  · rcases h with hforward | ⟨rfl, rfl⟩ | ⟨rfl, w, hread, hzero⟩
    · exact resolve_forward hforward
    · exact resolve_direct hguard
    · have hfield : fieldAf w = 0#12 := BitVec.eq_of_toNat_eq ((toNat_fieldAf w).trans hzero)
      rw [resolve_indirect_of_read hguard hread, hfield]

/-- Who raises AddressOutOfBounds: a data instruction turned away at location 0. Every other way to a next state keeps
RUN or gives it another end. -/
theorem dataOperands_of_exec_addressOutOfBounds {i : Instr} {s t : State} {info : Option Nat} (hs : s.run = .running)
    (h : exec i s = .next t) (ht : t.run = .fatal .addressOutOfBounds info) :
    ∃ ind af, dataOperands i = some (ind, af) ∧ resolve ind af s = some 0#12 ∧ info = some 0 := by
  rcases exec_next h with ⟨ind, af, hd, loc, hr, ⟨rfl, rfl⟩ | ⟨-, -, rfl⟩⟩ |
    ⟨_, _, _, _, _, -, -, -, -, -, rfl⟩ | ⟨_, _, _, _, -, -, -, -, rfl⟩ | ⟨_, _, _, -, -, rfl⟩ | ⟨-, rfl⟩ |
    ⟨-, -, rfl⟩ | ⟨-, -, _, _, rfl⟩ | ⟨-, rfl⟩ | ⟨-, rfl⟩
  case inl.inl =>
    cases ht
    exact ⟨ind, af, hd, hr, rfl⟩
  all_goals simp [hs] at ht

/-- A step raises AddressOutOfBounds through the instruction it runs: a PC beyond KMAXMEMORY has a cause of its own, and
a PC past the last word halts. -/
theorem exec_of_step_addressOutOfBounds {s t : State} {info : Option Nat} (h : step s = .next t)
    (ht : t.run = .fatal .addressOutOfBounds info) :
    ∃ w, s.mem.read s.pc.toNat = some w ∧ exec (decode w) s = .next t := by
  rcases step_running (running_of_step h) with ⟨-, e⟩ | ⟨-, -, e⟩ | ⟨w, -, hw, e⟩ <;> rw [e] at h
  · cases h
    cases ht
  · cases h
    cases ht
  · exact ⟨w, hw, h⟩

/-- Settles O15: the locations outside the range are location 0, at which every data instruction is turned away and
through which alone the cause is raised. -/
theorem addressOutOfBoundsIsForDataAccess : Obligations.AddressOutOfBoundsIsForDataAccess := by
  refine ⟨fun i ind af loc s hd hr hout => ?_, fun i ind af s hd hcause => ?_, fun i s t info hd hs h ht => ?_,
    fun s t info h ht => ?_⟩
  · obtain rfl : loc = 0#12 := addr_outside_iff.1 hout
    exact exec_data_of_resolve_zero hd hr
  · exact exec_data_of_resolve_zero hd (resolve_zero_of_cause hcause)
  · obtain ⟨ind, af, hdata, -, -⟩ := dataOperands_of_exec_addressOutOfBounds hs h ht
    rw [hd] at hdata
    cases hdata
  · obtain ⟨w, hw, hexec⟩ := exec_of_step_addressOutOfBounds h ht
    obtain ⟨ind, af, hdata, hr, hinfo⟩ := dataOperands_of_exec_addressOutOfBounds (running_of_step h) hexec ht
    exact ⟨w, ind, af, 0#12, hw, hdata, hr, addr_outside_iff.2 rfl, hinfo⟩

end Sys2Proof.Machine
end

section
/-! PROOFS. The decoder and the encoder are inverse to each other, and which instructions have an encoding
(30_encoding.md R64, R73). -/

namespace Sys2Proof.Machine

theorem decodeWith_of_addressed {c : Config} {w : Word} {op : AddrOp}
    (h : c.opMap (fieldMn c.layout w) = some (.addressed op)) :
    decodeWith c w = addressedInstr op (fieldInd c.layout w) (fieldAf w) := by
  simp only [decodeWith, h]

/-- The word put together from a code of the instruction's opcode and the instruction's own fields decodes to it. -/
theorem decodeWith_assemble {c : Config} {mn : Code} {i : Instr} (h : c.opMap mn = some i.primary) :
    decodeWith c (assemble c.layout mn i.indField i.afField) = i := by
  have hmn : c.opMap (fieldMn c.layout (assemble c.layout mn i.indField i.afField)) = some i.primary := by
    rw [fieldMn_assemble, h]
  cases i with
  | ban | sub | stc | and | add | ld | br =>
    rw [decodeWith_of_addressed hmn, fieldInd_assemble, fieldAf_assemble]
    rfl
  | rd | stp | wrt | nop000 | nop100 | nop101 | nop110 | nop111 =>
    rw [decodeWith_of_extended hmn, fieldSub3_assemble]
    rfl

theorem decodeWith_of_rowWordWith {c : Config} {i : Instr} {w : Word} (h : rowWordWith c i = some w) :
    decodeWith c w = i := by
  obtain ⟨mn, hmn, rfl⟩ := Option.map_eq_some_iff.1 h
  exact decodeWith_assemble (Config.opMap_of_codeOf hmn)

/-- Settles O4: a row word carries a code of its opcode and the fields of its instruction, which the decoder reads back
in either layout; an encoding is a row word. -/
theorem decodeOfEncodeEveryConfiguration : Obligations.DecodeOfEncodeEveryConfiguration :=
  ⟨fun _ _ _ h => decodeWith_of_rowWordWith h,
    fun _ _ _ h => decodeWith_of_rowWordWith (encodeWith_eq_some.1 h).2⟩

theorem isNoOp_iff {i : Instr} : i.isNoOp = true ↔ i ∈ [Instr.nop000, .nop100, .nop101, .nop110, .nop111] := by
  cases i with
  | ban | sub | stc | and | add | ld | br => simp [Instr.isNoOp]
  | rd | stp | wrt | nop000 | nop100 | nop101 | nop110 | nop111 => decide

/-- The search for an opcode's code succeeds exactly for the assigned opcodes. -/
theorem exists_codeOf_iff {c : Config} {p : Primary} : (∃ k, c.codeOf p = some k) ↔ c.assigns p = true := by
  rw [← Option.isSome_iff_exists, Config.codeOf, List.find?_isSome, Config.assigns, List.any_eq_true]

theorem exists_rowWordWith_iff {c : Config} {i : Instr} :
    (∃ w, rowWordWith c i = some w) ↔ i.wellFormed c = true := by
  rw [Instr.wellFormed, ← exists_codeOf_iff, ← Option.isSome_iff_exists, ← Option.isSome_iff_exists, rowWordWith,
    Option.isSome_map]

theorem exists_encodeWith_iff {c : Config} {i : Instr} :
    (∃ w, encodeWith c i = some w) ↔ i.isNoOp = false ∧ i.wellFormed c = true := by
  simp only [encodeWith_eq_some, exists_and_left, exists_rowWordWith_iff]

/-- The OPMAP of this hardware is the table of R64. -/
theorem codeOf_pullet16 (p : Primary) : pullet16.codeOf p = some (primaryCode p) := by
  cases p with
  | extended => rfl
  | addressed op => cases op <;> rfl

theorem rowWordWith_pullet16 (i : Instr) : rowWordWith pullet16 i = some (rowWord i) := by
  rw [rowWordWith, codeOf_pullet16, Option.map_some]
  rfl

/-- Settles O5: an opcode has a code exactly when OPMAP assigns it, and on this hardware the code found is the one of the
table of R64. -/
theorem wellFormedIsEncodable : Obligations.WellFormedIsEncodable := by
  refine ⟨fun c i => ?_, fun c i => exists_rowWordWith_iff, fun i => ⟨?_, rowWordWith_pullet16 i⟩⟩
  · rw [exists_encodeWith_iff, ← isNoOp_iff, Bool.not_eq_true, and_comm]
  · rw [encodeWith, rowWordWith_pullet16, encode]

theorem toNat_assemble_mnFirst (mn : Code) (ind : Bool) (af : Addr) :
    (assemble .mnFirst mn ind af).toNat = mn.toNat * 8192 + ind.toNat * 4096 + af.toNat := by
  rw [assemble, BitVec.toNat_append, BitVec.toNat_append, BitVec.toNat_ofBool, ← Nat.shiftLeft_add_eq_or_of_lt af.isLt,
    ← Nat.shiftLeft_add_eq_or_of_lt (Bool.toNat_lt ind)]
  simp only [Nat.shiftLeft_eq]
  omega

/-- R73's formula. -/
theorem encode_eq_ofNat {i : Instr} (h : i.isNoOp = false) :
    encode i = some (BitVec.ofNat 16
      ((primaryCode i.primary).toNat * 8192 + i.indField.toNat * 4096 + i.afField.toNat)) := by
  rw [encode_eq_some, ← toNat_assemble_mnFirst, BitVec.ofNat_toNat, BitVec.setWidth_eq]
  exact ⟨h, rfl⟩

/-- Settles O51: the formula of R73 at each opcode's number in the table of R64. -/
theorem encodingsHaveTheSpecValues : Obligations.EncodingsHaveTheSpecValues := by
  refine ⟨fun ind n => ?_, rfl, rfl, rfl, by decide⟩
  exact ⟨encode_eq_ofNat rfl, encode_eq_ofNat rfl, encode_eq_ofNat rfl, encode_eq_ofNat rfl, encode_eq_ofNat rfl,
    encode_eq_ofNat rfl, encode_eq_ofNat rfl⟩

end Sys2Proof.Machine
end

section
/-! PROOFS. The match and mask rows of this hardware (30_encoding.md R71), words of the spec's decode table
(95_test_vectors.md section 2.1), and encoding what was decoded (R73). -/

namespace Sys2Proof.Machine

theorem decode_of_addressed {w : Word} {op : AddrOp} (h : pullet16OpMap (fieldMn .mnFirst w) = some (.addressed op)) :
    decode w = addressedInstr op (w.getLsbD 12) (w.extractLsb' 0 12) :=
  decodeWith_of_addressed (c := pullet16) h

theorem decode_of_extended {w : Word} (h : fieldMn .mnFirst w = 7#3) : decode w = extendedInstr (fieldSub3 w) := by
  refine decodeWith_of_extended (c := pullet16) ?_
  change pullet16OpMap (fieldMn .mnFirst w) = _
  rw [h]
  rfl

/-- A word of an addressed row is that row's instruction. -/
theorem decode_of_addressed_row {w : Word} {op : AddrOp} (k : Code) (hk : pullet16OpMap k = some (.addressed op))
    (h : w &&& 0xE000#16 = k ++ 0#13) : decode w = addressedInstr op (w.getLsbD 12) (w.extractLsb' 0 12) := by
  apply decode_of_addressed
  rw [(mask_addressed w k).1 h, hk]

/-- A word of an extended row is that row's instruction. -/
theorem decode_of_extended_row {w : Word} (k : Code) (h : w &&& 0xE007#16 = 7#3 ++ 0#10 ++ k) :
    decode w = extendedInstr k := by
  obtain ⟨hmn, hsub⟩ := (mask_extended w k).1 h
  rw [decode_of_extended hmn, hsub]

/-- Settles O7, by the two kinds of row: the mask 0xE000 tests the mnemonic code, the mask 0xE007 the sub-code too. -/
theorem rowsDecideTheInstruction : Obligations.RowsDecideTheInstruction := by
  intro w
  exact ⟨decode_of_addressed_row 0b000 rfl, decode_of_addressed_row 0b001 rfl, decode_of_addressed_row 0b010 rfl,
    decode_of_addressed_row 0b011 rfl, decode_of_addressed_row 0b100 rfl, decode_of_addressed_row 0b101 rfl,
    decode_of_addressed_row 0b110 rfl, decode_of_extended_row 0b001, decode_of_extended_row 0b010,
    decode_of_extended_row 0b011, decode_of_extended_row 0b000, decode_of_extended_row 0b100,
    decode_of_extended_row 0b101, decode_of_extended_row 0b110, decode_of_extended_row 0b111⟩

/-- Settles O10: each word, with the row it lies in. -/
theorem specWordsDecode : Obligations.SpecWordsDecode :=
  ⟨decode_of_addressed_row 0b000 rfl rfl, decode_of_addressed_row 0b001 rfl rfl,
    decode_of_addressed_row 0b010 rfl rfl, decode_of_addressed_row 0b011 rfl rfl,
    decode_of_addressed_row 0b100 rfl rfl, decode_of_addressed_row 0b101 rfl rfl,
    decode_of_addressed_row 0b110 rfl rfl, decode_of_extended_row 0b001 rfl, decode_of_extended_row 0b010 rfl,
    decode_of_extended_row 0b011 rfl, decode_of_extended_row 0b000 rfl, decode_of_extended_row 0b111 rfl⟩

/-- OPMAP read backwards: a code that selects an addressed opcode is that opcode's number. -/
theorem pullet16OpMap_eq_some_addressed {k : Code} {op : AddrOp} (h : pullet16OpMap k = some (.addressed op)) :
    primaryCode (.addressed op) = k := by
  revert h k
  cases op <;> decide

theorem exists_addressed_of_code_ne {k : Code} (h : k ≠ 7#3) : ∃ op, pullet16OpMap k = some (.addressed op) := by
  have hcode : pullet16OpMap k ≠ none ∧ pullet16OpMap k ≠ some .extended := by
    revert h k
    decide
  obtain ⟨hnone, hext⟩ := hcode
  rcases hp : pullet16OpMap k with _ | op | _
  · exact absurd hp hnone
  · exact ⟨op, rfl⟩
  · exact absurd hp hext

theorem rowWord_addressedInstr (op : AddrOp) (ind : Bool) (af : Addr) :
    rowWord (addressedInstr op ind af) = assemble .mnFirst (primaryCode (.addressed op)) ind af := by
  cases op <;> rfl

theorem isNoOp_addressedInstr (op : AddrOp) (ind : Bool) (af : Addr) : (addressedInstr op ind af).isNoOp = false := by
  cases op <;> rfl

/-- A word outside the extended code loses nothing in the decoder. -/
theorem rowWord_decode_of_code_ne {w : Word} (h : fieldMn .mnFirst w ≠ 7#3) :
    rowWord (decode w) = w ∧ (decode w).isNoOp = false := by
  obtain ⟨op, hop⟩ := exists_addressed_of_code_ne h
  have hdecode : decode w = addressedInstr op (fieldInd .mnFirst w) (fieldAf w) := decode_of_addressed hop
  rw [hdecode]
  refine ⟨?_, isNoOp_addressedInstr _ _ _⟩
  rw [rowWord_addressedInstr, pullet16OpMap_eq_some_addressed hop, assemble_fields]

theorem rowWord_extendedInstr (k : Code) : rowWord (extendedInstr k) = 7#3 ++ 0#10 ++ k := by
  revert k
  decide

theorem isNoOp_extendedInstr (k : Code) : (extendedInstr k).isNoOp = false ↔ k = 1#3 ∨ k = 2#3 ∨ k = 3#3 := by
  revert k
  decide

theorem and_eq_self_iff_and_not_eq_zero (w m : Word) : w &&& m = w ↔ w &&& ~~~m = 0#16 := by
  constructor
  · intro h
    rw [← h, BitVec.and_assoc, BitVec.and_not_self]
    exact BitVec.and_zero
  · intro h
    calc w &&& m = w &&& m ||| w &&& ~~~m := by rw [h, BitVec.or_zero]
      _ = w := by rw [← BitVec.and_or_distrib_left, BitVec.or_not_self, BitVec.and_allOnes]

/-- An extended word loses bits 12:3 in the decoder. -/
theorem rowWord_decode_of_extended {w : Word} (h : fieldMn .mnFirst w = 7#3) :
    rowWord (decode w) = w ↔ w &&& 0x1FF8#16 = 0#16 := by
  have hkept : w &&& 0xE007#16 = 7#3 ++ 0#10 ++ fieldSub3 w := (mask_extended w _).2 ⟨h, rfl⟩
  rw [decode_of_extended h, rowWord_extendedInstr, ← hkept]
  exact and_eq_self_iff_and_not_eq_zero w 0xE007#16

theorem fieldSub3_eq_iff (w : Word) (k : Code) : fieldSub3 w = k ↔ w &&& 7#16 = k.setWidth 16 := by
  have hk : k.toNat < 8 := k.isLt
  have hmask : (w &&& 7#16).toNat = w.toNat % 8 := Nat.and_two_pow_sub_one_eq_mod w.toNat 3
  rw [← BitVec.toNat_inj, toNat_fieldSub3, ← BitVec.toNat_inj, hmask, BitVec.toNat_setWidth,
    Nat.mod_eq_of_lt (by omega : k.toNat < 2 ^ 16)]

/-- Settles O6: a word whose code is not the extended one keeps its three fields; an extended one keeps the code and the
sub-code, and its bits 12:3 only if they are zero. -/
theorem encodeOfDecodeOnCanonicalWords : Obligations.EncodeOfDecodeOnCanonicalWords := by
  have hext (w : Word) : w &&& 0xE000#16 = 0xE000#16 ↔ fieldMn .mnFirst w = 7#3 := mask_addressed w 7#3
  refine ⟨fun w => ?_, fun w => ?_⟩
  · rw [encode_eq_some, ne_eq, hext]
    by_cases h : fieldMn .mnFirst w = 7#3
    · rw [rowWord_decode_of_extended h, decode_of_extended h, isNoOp_extendedInstr, fieldSub3_eq_iff,
        fieldSub3_eq_iff, fieldSub3_eq_iff, and_comm]
      simp only [h, not_true_eq_false, false_or]
      rfl
    · obtain ⟨hrow, hnop⟩ := rowWord_decode_of_code_ne h
      simp only [h, hrow, hnop, not_false_eq_true, true_or, and_self]
  · rw [ne_eq, hext]
    by_cases h : fieldMn .mnFirst w = 7#3
    · simp only [rowWord_decode_of_extended h, h, not_true_eq_false, false_or]
    · simp only [(rowWord_decode_of_code_ne h).1, h, not_false_eq_true, true_or]

end Sys2Proof.Machine
end

section
/-! PROOFS. The signed view on this hardware (43_branch.md R124) and truncated sums (00_scope.md R11). -/

namespace Sys2Proof.Machine

theorem tc16_of_le {v : Word} (h : v.toNat ≤ 32768) : tc16 pullet16 v = (v.toNat : Int) :=
  if_pos h

theorem tc16_of_gt {v : Word} (h : 32768 < v.toNat) : tc16 pullet16 v = (v.toNat : Int) - 65536 :=
  if_neg (Nat.not_le.2 h)

theorem tc16_neg_iff {v : Word} : tc16 pullet16 v < 0 ↔ 0x8001 ≤ v.toNat := by
  have hlt : v.toNat < 65536 := v.isLt
  rcases Nat.lt_or_ge 32768 v.toNat with h | h
  · rw [tc16_of_gt h]
    omega
  · rw [tc16_of_le h]
    omega

/-- Settles O2, by the two sides of the threshold. -/
theorem signedViewThreshold : Obligations.SignedViewThreshold := by
  intro v
  have hlt : v.toNat < 65536 := v.isLt
  have hrange : -32767 ≤ tc16 pullet16 v ∧ tc16 pullet16 v ≤ 32768 := by
    rcases Nat.lt_or_ge 32768 v.toNat with h | h
    · rw [tc16_of_gt h]
      omega
    · rw [tc16_of_le h]
      omega
  exact ⟨tc16_of_le, tc16_of_gt, hrange.1, hrange.2, decide_eq_true_iff.trans tc16_neg_iff⟩

theorem toNat_enc16_add (c : Config) (v w : Word) :
    ((enc16 (tc16 c v + tc16 c w)).toNat : Int) = ((v.toNat : Int) + (w.toNat : Int)) % 65536 := by
  rw [enc16_toNat, Int.add_emod, tc16_emod, tc16_emod]

theorem toNat_enc16_sub (c : Config) (v : Word) (k : Int) :
    ((enc16 (tc16 c v - k)).toNat : Int) = ((v.toNat : Int) - k) % 65536 := by
  rw [enc16_toNat, ← tc16_emod c v, Int.emod_sub_emod]

/-- Settles O3: modulo 65536 the signed view of a pattern is the pattern. -/
theorem truncationForgetsTheView : Obligations.TruncationForgetsTheView :=
  fun c v w k => ⟨toNat_enc16_add c v w, toNat_enc16_sub c v k⟩

end Sys2Proof.Machine
end

section
/-! PROOFS. The kinds of step, by RUN and the place of PC (40_fetch_decode_resolve.md R80, R81, R84). -/

namespace Sys2Proof.Machine

@[simp] theorem pullet16_kMaxMemory : pullet16.kMaxMemory = 4095 := rfl

theorem step_of_beyond {s : State} (hr : s.run = .running) (h : 4095 < s.pc.toNat) :
    step s = .next (s.setRun (.fatal .pcOutOfRange (some s.pc.toNat))) := by
  have hfetch : fetch pullet16 s = .beyondMax := if_pos h
  simp only [step, hr, hfetch, raise_eq]

theorem step_of_pastEnd {s : State} (hr : s.run = .running) (h : s.pc.toNat ≤ 4095)
    (hsize : s.mem.size ≤ s.pc.toNat) : step s = .next (s.setRun .halted) := by
  have hfetch : fetch pullet16 s = .pastEnd := by
    simp [fetch, Nat.not_lt.2 h, Memory.read_eq_none.2 hsize]
  simp only [step, hr, hfetch, halt_eq]

theorem step_of_word {s : State} {w : Word} (hr : s.run = .running) (h : s.pc.toNat ≤ 4095)
    (hw : s.mem.read s.pc.toNat = some w) : step s = exec (decode w) s := by
  have hfetch : fetch pullet16 s = .word w := by
    simp [fetch, Nat.not_lt.2 h, hw]
  simp only [step, hr, hfetch]

theorem step_of_halted {s : State} (hr : s.run = .halted) : step s = .fault .halted := by
  simp only [step, hr]

theorem step_of_fatal {s : State} {cause : Cause} {info : Option Nat} (hr : s.run = .fatal cause info) :
    step s = .fault (.fatalEnd cause info) := by
  simp only [step, hr]

/-- Settles O28: the fetch finds the word at PC, and the step is what it decodes to. -/
theorem stepRunsTheDecodedInstruction : Obligations.StepRunsTheDecodedInstruction :=
  fun _ _ hr h hw => step_of_word hr h hw

/-- Settles O29, by the three kinds of step without a fetched word. -/
theorem stepsWithoutAFetch : Obligations.StepsWithoutAFetch :=
  ⟨fun _ hr h hsize => step_of_pastEnd hr h hsize, fun _ hr => step_of_halted hr, fun _ _ _ hr => step_of_fatal hr⟩

end Sys2Proof.Machine
end

section
/-! PROOFS. Where an addressed instruction completes and where it is turned away: Resolve and CheckAccess
(40_fetch_decode_resolve.md R86, R88, R90). -/

namespace Sys2Proof.Machine

/-- R86 (d): a field at or below PC lies below MEMSIZE when PC does. -/
theorem exists_resolve {s : State} (h : s.pc.toNat < s.mem.size) (ind : Bool) (af : Addr) :
    ∃ loc, resolve ind af s = some loc := by
  cases hr : resolve ind af s with
  | none => exact absurd (resolve_eq_none hr) (Nat.not_le.2 h)
  | some loc => exact ⟨loc, rfl⟩

/-- Settles O12: Resolve fails only when PC is at or above MEMSIZE. -/
theorem fetchedInstructionsResolve : Obligations.FetchedInstructionsResolve :=
  fun ind af _ h => exists_resolve h ind af

section
variable {ind : Bool} {af loc : Addr} {s : State} (hr : resolve ind af s = some loc) (h0 : loc ≠ 0#12)
include hr h0

theorem withLocation_of_unloaded (hs : s.mem.size ≤ loc.toNat) (k : Addr → Result) :
    withLocation pullet16 ind af s k = raise .unloadedAccess (some loc.toNat) s := by
  simp only [withLocation, hr, checkAccess_addr, h0, hs, if_true, if_false]

theorem withLocation_of_loaded (hs : loc.toNat < s.mem.size) (k : Addr → Result) :
    withLocation pullet16 ind af s k = k loc := by
  simp only [withLocation, hr, checkAccess_addr, h0, Nat.not_le.2 hs, if_false]

theorem withOperand_of_read {m : Word} (hm : s.mem.read loc.toNat = some m) (k : Word → Result) :
    withOperand pullet16 ind af s k = k m := by
  simp only [withOperand, withLocation_of_loaded hr h0 (Memory.lt_of_read hm), hm]

/-- A data instruction at a location without a word is turned away before its effect, whichever of the five it is. -/
theorem exec_data_of_unloaded {i : Instr} (hd : dataOperands i = some (ind, af)) (hs : s.mem.size ≤ loc.toNat) :
    exec i s = .next (s.setRun (.fatal .unloadedAccess (some loc.toNat))) := by
  obtain ⟨k, hk⟩ := exec_data hd s
  rw [hk, withLocation_of_unloaded hr h0 hs, raise_eq]

end

theorem accessIsValidated {i : Bool → Addr → Instr} (hd : ∀ ind af, dataOperands (i ind af) = some (ind, af)) :
    AccessIsValidated i := by
  intro ind af loc s hr
  refine ⟨fun h0 => ?_, fun h0 hs => exec_data_of_unloaded hr h0 (hd ind af) hs⟩
  subst h0
  exact exec_data_of_resolve_zero (hd ind af) hr

/-- Settles O14: all five data instructions have the shape that CheckAccess guards. -/
theorem dataAccessesAreValidated : Obligations.DataAccessesAreValidated :=
  ⟨accessIsValidated fun _ _ => rfl, accessIsValidated fun _ _ => rfl, accessIsValidated fun _ _ => rfl,
    accessIsValidated fun _ _ => rfl, accessIsValidated fun _ _ => rfl⟩

end Sys2Proof.Machine
end

section
/-! PROOFS. What the data instructions do at a loaded location (41_arithmetic_logic.md, 42_load_store.md). -/

namespace Sys2Proof.Machine

section
variable {ind : Bool} {af loc : Addr} {s : State} (hr : resolve ind af s = some loc) (h0 : loc ≠ 0#12)
include hr h0

/-- ADD, AND, SUB and LD compute ACC from the operand word and advance. -/
theorem withOperand_setAcc {m : Word} (hm : s.mem.read loc.toNat = some m) (f : Word → Word) :
    withOperand pullet16 ind af s (fun m => advance (s.setAcc (f m))) =
      .next { s with acc := f m, pc := s.pc + 1#16 } := by
  rw [withOperand_of_read hr h0 hm, advance_eq]
  rfl

/-- What STC stores is the accumulator's pattern. -/
theorem execStc_of_write {m : Memory} (hm : s.mem.write loc.toNat s.acc = some m) :
    execStc ind af s = .next { s with mem := m, acc := 0#16, pc := s.pc + 1#16 } := by
  obtain ⟨hs, -, -⟩ := Memory.write_spec hm
  simp only [execStc, withLocation_of_loaded hr h0 hs, storeAndClear, enc16_tc16, hm, advance_eq]
  rfl

end

theorem ofNat_add_emod (v w : Word) (c : Config) :
    BitVec.ofNat 16 ((v.toNat + w.toNat) % 65536) = enc16 (tc16 c v + tc16 c w) := by
  have hsum := toNat_enc16_add c v w
  apply BitVec.eq_of_toNat_eq
  rw [BitVec.toNat_ofNat]
  omega

/-- Settles O16: the operand word is reached, and the sum of the signed views is, modulo 65536, that of the patterns. -/
theorem addEffect : Obligations.AddEffect := by
  intro ind af loc s m hr h0 hm
  refine ⟨?_, ofNat_add_emod s.acc m pullet16⟩
  rw [ofNat_add_emod s.acc m pullet16]
  exact withOperand_setAcc hr h0 hm fun m => enc16 (tc16 pullet16 s.acc + tc16 pullet16 m)

/-- Settles O17: the conjunction of two words is taken bit by bit. -/
theorem andEffect : Obligations.AndEffect := by
  intro ind af loc s m hr h0 hm
  exact ⟨s.acc &&& m, withOperand_setAcc hr h0 hm fun m => s.acc &&& m, fun j => BitVec.getLsbD_and⟩

/-- Settles O18: the subtrahend is the 12-bit field, which is the word modulo 4096. -/
theorem subEffect : Obligations.SubEffect := by
  intro ind af loc s m hr h0 hm
  refine ⟨_, withOperand_setAcc hr h0 hm fun m => enc16 (tc16 pullet16 s.acc - ((fieldAf m).toNat : Int)), ?_⟩
  rw [toNat_enc16_sub, toNat_fieldAf]

theorem setWidth_fieldAf (m : Word) : (fieldAf m).setWidth 16 = BitVec.ofNat 16 (m.toNat % 4096) := by
  rw [← toNat_fieldAf, BitVec.ofNat_toNat]

/-- Settles O19: the 12-bit field, widened, is the word modulo 4096. -/
theorem ldEffect : Obligations.LdEffect := by
  intro ind af loc s m hr h0 hm
  rw [← setWidth_fieldAf]
  exact withOperand_setAcc hr h0 hm fun m => (fieldAf m).setWidth 16

/-- Settles O20: the write succeeds at a loaded location, and `Memory.write_spec` says what it leaves. -/
theorem stcEffect : Obligations.StcEffect := by
  intro ind af loc s hr h0 hs
  obtain ⟨m, hm⟩ := Memory.write_isSome s.acc hs
  obtain ⟨-, hsize, hread⟩ := Memory.write_spec hm
  refine ⟨m, execStc_of_write hr h0 hm, hsize, ?_, fun a ha => ?_⟩
  · rw [hread, if_pos rfl]
  · rw [hread, if_neg ha]

end Sys2Proof.Machine
end

section
/-! PROOFS. What the branches and the instructions without an operand do (43_branch.md, 44_extended_io_stop.md). -/

namespace Sys2Proof.Machine

theorem branchTo_ofNat {ind : Bool} {af loc : Addr} {s : State} (hr : resolve ind af s = some loc) :
    branchTo ind af s = .next { s with pc := BitVec.ofNat 16 loc.toNat } := by
  rw [branchTo_of_resolve hr, BitVec.ofNat_toNat]
  rfl

theorem execBan_not_taken {s : State} (h : ¬ tc16 pullet16 s.acc < 0) (ind : Bool) (af : Addr) :
    execBan ind af s = advance s :=
  if_neg fun hneg => h (of_decide_eq_true hneg)

/-- Settles O21: BR is `branchTo`, which takes the location as it is. -/
theorem brEffect : Obligations.BrEffect :=
  fun _ _ _ _ hr => branchTo_ofNat hr

/-- Settles O22, by the sign of the accumulator. -/
theorem banEffect : Obligations.BanEffect := by
  intro ind af s
  refine ⟨fun h loc hr => ?_, fun h => ?_⟩
  · exact (execBan_taken (tc16_neg_iff.2 h) ind af).trans (branchTo_ofNat hr)
  · have hpos : ¬ tc16 pullet16 s.acc < 0 := by
      rw [tc16_neg_iff]
      omega
    exact execBan_not_taken hpos ind af

theorem execRd_of_val {s : State} {n : Int} (h : s.nextItem = some (.val n)) :
    execRd s = .next { s with acc := enc16 n, inPos := s.inPos + 1, pc := s.pc + 1#16 } := by
  simp only [execRd, h, advance_eq]
  rfl

theorem execRd_of_malformed {s : State} (h : s.nextItem = some .malformed) :
    execRd s = .next { s with
      acc := Config.freeWord s.draws, draws := s.draws + 1, inPos := s.inPos + 1, pc := s.pc + 1#16 } := by
  simp only [execRd, h, advance_eq]
  rfl

/-- Settles O23, by the kind of the next item. -/
theorem rdEffect : Obligations.RdEffect :=
  fun _ => ⟨fun n hitem => ⟨enc16 n, execRd_of_val hitem, enc16_toNat n⟩, fun hitem => execRd_of_malformed hitem⟩

theorem exec_noOp {i : Instr} (h : i.isNoOp = true) (s : State) : exec i s = .next { s with pc := s.pc + 1#16 } := by
  cases i with
  | nop000 | nop100 | nop101 | nop110 | nop111 => rfl
  | ban | sub | stc | and | add | ld | br | rd | stp | wrt => cases h

/-- Settles O9: the decoder answers a no-op for a code that is not assigned. -/
theorem unrecognisedCodeIsANoOp : Obligations.UnrecognisedCodeIsANoOp := by
  intro c w s hnone
  have hdecode : decodeWith c w = .nop000 := by simp only [decodeWith, hnone]
  rw [hdecode]
  exact exec_noOp rfl s

/-- A step at a word of an extended row runs that row's instruction. -/
theorem step_of_extended_row {s : State} {w : Word} (k : Code) (hr : s.run = .running) (h : s.pc.toNat ≤ 4095)
    (hw : s.mem.read s.pc.toNat = some w) (hrow : w &&& 0xE007#16 = 7#3 ++ 0#10 ++ k) :
    step s = exec (extendedInstr k) s := by
  rw [step_of_word hr h hw, decode_of_extended_row k hrow]

/-- Settles O25: the record's value is the signed view, whose threshold the statement writes out. -/
theorem wrtEffect : Obligations.WrtEffect := by
  rintro s _ rfl
  have hexec : exec .wrt s = .next { s with
      out := s.out ++ [{ value := tc16 pullet16 s.acc, pattern := s.acc }], pc := s.pc + 1#16 } := rfl
  exact ⟨hexec, fun w hr h hw hrow => (step_of_extended_row 0b011 hr h hw hrow).trans hexec⟩

/-- Settles O26: the meaning of STP, at the row of sub-code 010, and no step of a halted machine. -/
theorem stpEffect : Obligations.StpEffect := by
  rintro s _ rfl
  have hexec : exec .stp s = .next { s with run := .halted } := rfl
  exact ⟨hexec, fun w hr h hw hrow => (step_of_extended_row 0b010 hr h hw hrow).trans hexec, step_of_halted rfl⟩

/-- Settles O27: the five rows are those of the sub-codes that select a no-op. -/
theorem nopEffect : Obligations.NopEffect := by
  rintro s _ rfl
  refine ⟨fun i hi => exec_noOp (isNoOp_iff.2 hi) s, fun w hr h hw hrow => ?_⟩
  have run (k : Code) (hk : (extendedInstr k).isNoOp = true) (hmatch : w &&& 0xE007#16 = 7#3 ++ 0#10 ++ k) :
      step s = .next { s with pc := s.pc + 1#16 } :=
    (step_of_extended_row k hr h hw hmatch).trans (exec_noOp hk s)
  simp only [List.mem_cons, List.not_mem_nil, or_false] at hrow
  rcases hrow with e | e | e | e | e
  · exact run 0b000 rfl e
  · exact run 0b100 rfl e
  · exact run 0b101 rfl e
  · exact run 0b110 rfl e
  · exact run 0b111 rfl e

end Sys2Proof.Machine
end

section
/-! PROOFS. What an instruction and a step do to each part of the state, read off `exec_next`. -/

namespace Sys2Proof.Machine

/-- The instruction assigns PC: a BR, or a BAN with a negative accumulator (10_state.md R25). -/
def TakesBranch (i : Instr) (ind : Bool) (af : Addr) (s : State) : Prop :=
  i = .br ind af ∨ (i = .ban ind af ∧ tc16 pullet16 s.acc < 0)

/-- Which fatal condition the instruction raises, and with which info (60_exceptions.md R147): CheckAccess refuses the
location of a data instruction, or RD finds no item. -/
def Raises (i : Instr) (s : State) (cause : Cause) (info : Option Nat) : Prop :=
  (∃ ind af loc, dataOperands i = some (ind, af) ∧ resolve ind af s = some loc ∧ info = some loc.toNat ∧
    ((cause = .addressOutOfBounds ∧ loc = 0#12) ∨
     (cause = .unloadedAccess ∧ loc ≠ 0#12 ∧ s.mem.size ≤ loc.toNat))) ∨
  (i = .rd ∧ cause = .inputExhausted ∧ info = none ∧ s.input.length ≤ s.inPos)

theorem TurnedAway.raises {i : Instr} {ind : Bool} {af : Addr} {s t : State} (hd : dataOperands i = some (ind, af))
    (h : TurnedAway ind af s t) : ∃ cause info, Raises i s cause info ∧ t = s.setRun (.fatal cause info) := by
  obtain ⟨loc, hr, ⟨rfl, rfl⟩ | ⟨h0, hs, rfl⟩⟩ := h
  · exact ⟨_, _, .inl ⟨ind, af, 0#12, hd, hr, rfl, .inl ⟨rfl, rfl⟩⟩, rfl⟩
  · exact ⟨_, _, .inl ⟨ind, af, loc, hd, hr, rfl, .inr ⟨rfl, h0, hs⟩⟩, rfl⟩

/-- An instruction ends the run, and then writes RUN alone, or leaves RUN and moves PC. -/
theorem exec_ends_or_goesOn {i : Instr} {s t : State} (h : exec i s = .next t) :
    (∃ cause info, Raises i s cause info ∧ t = s.setRun (.fatal cause info)) ∨
    (i = .stp ∧ t = s.setRun .halted) ∨
    (t.run = s.run ∧ (t.pc = s.pc + 1#16 ∨ ∃ ind af, TakesBranch i ind af s)) := by
  rcases exec_next h with ⟨ind, af, hd, haway⟩ | ⟨_, _, _, _, _, -, -, -, -, -, rfl⟩ | ⟨_, _, _, _, -, -, -, -, rfl⟩ |
    ⟨ind, af, _, htakes, -, rfl⟩ | ⟨-, rfl⟩ | ⟨hrd, hend, rfl⟩ | ⟨-, -, _, _, rfl⟩ | ⟨-, rfl⟩ | ⟨hstp, rfl⟩
  · exact .inl (haway.raises hd)
  · exact .inr (.inr ⟨rfl, .inl rfl⟩)
  · exact .inr (.inr ⟨rfl, .inl rfl⟩)
  · exact .inr (.inr ⟨rfl, .inr ⟨ind, af, htakes⟩⟩)
  · exact .inr (.inr ⟨rfl, .inl rfl⟩)
  · exact .inl ⟨_, _, .inr ⟨hrd, rfl, rfl, hend⟩, rfl⟩
  · exact .inr (.inr ⟨rfl, .inl rfl⟩)
  · exact .inr (.inr ⟨rfl, .inl rfl⟩)
  · exact .inr (.inl ⟨hstp, rfl⟩)

/-- Memory changes only by a STC's write, of the accumulator's pattern, at a location that is not 0. -/
theorem exec_mem {i : Instr} {s t : State} (h : exec i s = .next t) :
    t.mem = s.mem ∨ ∃ ind af loc, i = .stc ind af ∧ resolve ind af s = some loc ∧ loc ≠ 0#12 ∧
      s.mem.write loc.toNat s.acc = some t.mem := by
  rcases exec_next h with ⟨_, _, -, haway⟩ | ⟨_, _, _, _, _, -, -, -, -, -, rfl⟩ |
    ⟨ind, af, loc, m, hstc, hr, h0, hm, rfl⟩ | ⟨_, _, _, -, -, rfl⟩ | ⟨-, rfl⟩ | ⟨-, -, rfl⟩ | ⟨-, -, _, _, rfl⟩ |
    ⟨-, rfl⟩ | ⟨-, rfl⟩
  · obtain ⟨r, rfl⟩ := haway.eq_setRun
    exact .inl rfl
  · exact .inl rfl
  · rw [enc16_tc16] at hm
    exact .inr ⟨ind, af, loc, hstc, hr, h0, hm⟩
  · exact .inl rfl
  · exact .inl rfl
  · exact .inl rfl
  · exact .inl rfl
  · exact .inl rfl
  · exact .inl rfl

/-- INPOS moves past an item that is there, or not at all. -/
theorem exec_inPos {i : Instr} {s t : State} (h : exec i s = .next t) :
    t.inPos = s.inPos ∨ (s.inPos < s.input.length ∧ t.inPos = s.inPos + 1) := by
  by_cases hrd : i = .rd
  · subst hrd
    rcases execRd_next h with ⟨-, rfl⟩ | ⟨n, hitem, rfl⟩ | ⟨hitem, rfl⟩
    · exact .inl rfl
    · exact .inr ⟨(List.getElem?_eq_some_iff.1 hitem).1, rfl⟩
    · exact .inr ⟨(List.getElem?_eq_some_iff.1 hitem).1, rfl⟩
  · obtain ⟨-, -, hinPos, -⟩ := exec_frame h
    exact .inl (hinPos hrd)

/-- OUT grows by a record of the accumulator, or not at all. -/
theorem exec_out {i : Instr} {s t : State} (h : exec i s = .next t) :
    t.out = s.out ∨ t.out = s.out ++ [{ value := tc16 pullet16 s.acc, pattern := s.acc }] := by
  by_cases hwrt : i = .wrt
  · subst hwrt
    cases h
    exact .inr rfl
  · obtain ⟨-, -, -, hout⟩ := exec_frame h
    exact .inl (hout hwrt)

/-- ACC is written by the data instructions and RD alone. -/
theorem exec_acc {i : Instr} {s t : State} (hd : dataOperands i = none) (hrd : i ≠ .rd) (h : exec i s = .next t) :
    t.acc = s.acc := by
  rcases exec_next h with ⟨_, _, hdata, -⟩ | ⟨_, _, _, _, _, hdata, -⟩ | ⟨_, _, _, _, rfl, -⟩ |
    ⟨_, _, _, -, -, rfl⟩ | ⟨-, rfl⟩ | ⟨h, -⟩ | ⟨h, -⟩ | ⟨-, rfl⟩ | ⟨-, rfl⟩
  · simp [hd] at hdata
  · simp [hd] at hdata
  · cases hd
  · rfl
  · rfl
  · exact absurd h hrd
  · exact absurd h hrd
  · rfl
  · rfl

theorem step_mem {s t : State} (h : step s = .next t) :
    t.mem = s.mem ∨ ∃ loc : Addr, loc ≠ 0#12 ∧ s.mem.write loc.toNat s.acc = some t.mem := by
  rcases step_next h with ⟨r, rfl⟩ | ⟨w, -, he⟩
  · exact .inl rfl
  · rcases exec_mem he with hmem | ⟨_, _, loc, -, -, h0, hwrite⟩
    · exact .inl hmem
    · exact .inr ⟨loc, h0, hwrite⟩

theorem step_inPos {s t : State} (h : step s = .next t) :
    t.inPos = s.inPos ∨ (s.inPos < s.input.length ∧ t.inPos = s.inPos + 1) := by
  rcases step_next h with ⟨r, rfl⟩ | ⟨w, -, he⟩
  · exact .inl rfl
  · exact exec_inPos he

theorem step_out {s t : State} (h : step s = .next t) :
    t.out = s.out ∨ t.out = s.out ++ [{ value := tc16 pullet16 s.acc, pattern := s.acc }] := by
  rcases step_next h with ⟨r, rfl⟩ | ⟨w, -, he⟩
  · exact .inl rfl
  · exact exec_out he

/-- A step that ends the run writes RUN alone. -/
theorem eq_setRun_of_step {s t : State} (h : step s = .next t) (ht : t.run ≠ .running) : t = s.setRun t.run := by
  rcases step_next h with ⟨r, rfl⟩ | ⟨w, -, he⟩
  · rfl
  · rcases exec_ends_or_goesOn he with ⟨_, _, -, rfl⟩ | ⟨-, rfl⟩ | ⟨hrun, -⟩
    · rfl
    · rfl
    · exact absurd (hrun.trans (running_of_step h)) ht

/-- A step that leaves the machine RUNNING ran the word at PC. -/
theorem exec_of_step_running {s t : State} (h : step s = .next t) (ht : t.run = .running) :
    ∃ w, s.pc.toNat ≤ 4095 ∧ s.mem.read s.pc.toNat = some w ∧ exec (decode w) s = .next t := by
  rcases step_running (running_of_step h) with ⟨-, e⟩ | ⟨-, -, e⟩ | ⟨w, hpc, hw, e⟩ <;> rw [e] at h
  · cases h
    cases ht
  · cases h
    cases ht
  · exact ⟨w, hpc, hw, h⟩

end Sys2Proof.Machine
end

section
/-! PROOFS. PC after a step (10_state.md R25, 40_fetch_decode_resolve.md R82). -/

namespace Sys2Proof.Machine

theorem TakesBranch.exec_eq {i : Instr} {ind : Bool} {af : Addr} {s : State} (h : TakesBranch i ind af s) :
    exec i s = branchTo ind af s := by
  rcases h with rfl | ⟨rfl, hneg⟩
  · rfl
  · exact execBan_taken hneg ind af

theorem TakesBranch.next {i : Instr} {ind : Bool} {af : Addr} {s t : State} (hb : TakesBranch i ind af s)
    (h : exec i s = .next t) : ∃ loc, resolve ind af s = some loc ∧ t.pc.toNat = loc.toNat := by
  rw [hb.exec_eq] at h
  obtain ⟨loc, hr, rfl⟩ := branchTo_next h
  exact ⟨loc, hr, BitVec.toNat_setWidth_of_le (by decide)⟩

theorem toNat_pc_succ {v : Word} (h : v.toNat < 65535) : (v + 1#16).toNat = v.toNat + 1 :=
  BitVec.toNat_add_of_lt (show v.toNat + 1 < 65536 by omega)

/-- An instruction that goes on without assigning PC advances it. -/
theorem pc_of_exec_not_branch {i : Instr} {s t : State} (hb : ∀ ind af, ¬ TakesBranch i ind af s)
    (h : exec i s = .next t) (ht : t.run = .running) : t.pc = s.pc + 1#16 := by
  rcases exec_ends_or_goesOn h with ⟨_, _, -, rfl⟩ | ⟨-, rfl⟩ | ⟨-, hpc | ⟨ind, af, htakes⟩⟩
  · cases ht
  · cases ht
  · exact hpc
  · exact absurd htakes (hb ind af)

/-- Settles O33, by the instruction at PC: a taken branch assigns its location, every other that goes on advances; the
step that ends the run keeps PC. -/
theorem pcAfterAStep : Obligations.PcAfterAStep := by
  intro s t h
  refine ⟨fun ht => ?_, fun ht => ?_⟩
  · rw [eq_setRun_of_step h ht]
    rfl
  · obtain ⟨w, hpc, hw, he⟩ := exec_of_step_running h ht
    refine ⟨w, hw, fun ind af hb => TakesBranch.next hb he, fun hnb => ?_⟩
    have hnot (ind : Bool) (af : Addr) : ¬ TakesBranch (decode w) ind af s :=
      not_or.2 (hnb ind af)
    rw [pc_of_exec_not_branch hnot he ht, toNat_pc_succ (by omega)]

/-- R26, for one step: PC stays in 0..4095 when MEMSIZE is within KMAXMEMORY. -/
theorem step_pc_range {s t : State} (hsize : s.mem.size ≤ 4095) (hpc : s.pc.toNat ≤ 4095) (h : step s = .next t) :
    t.pc.toNat ≤ 4095 := by
  obtain ⟨hend, hgoes⟩ := pcAfterAStep s t h
  by_cases ht : t.run = .running
  · obtain ⟨w, hw, hbranch, hadvance⟩ := hgoes ht
    by_cases hb : ∃ ind af, TakesBranch (decode w) ind af s
    · obtain ⟨ind, af, htakes⟩ := hb
      obtain ⟨loc, -, hloc⟩ := hbranch ind af htakes
      have hlt : loc.toNat < 4096 := loc.isLt
      omega
    · have hlt : s.pc.toNat < s.mem.size := Memory.lt_of_read hw
      have hnext : t.pc.toNat = s.pc.toNat + 1 :=
        hadvance fun ind af => not_or.1 fun htakes => hb ⟨ind, af, htakes⟩
      omega
  · rw [hend ht]
    exact hpc

end Sys2Proof.Machine
end

section
/-! PROOFS. How a step ends the run: the fatal causes and the normal halt (60_exceptions.md R140, R147, R148,
10_state.md R28). -/

namespace Sys2Proof.Machine

/-- Settles O34: a step that ends the run writes RUN alone. -/
theorem fatalStepsChangeOnlyRun : Obligations.FatalStepsChangeOnlyRun := by
  intro s t cause info h ht
  have heq : t = s.setRun t.run := eq_setRun_of_step h (by simp [ht])
  rw [ht] at heq
  exact heq

theorem exec_halts_iff {i : Instr} {s t : State} (hs : s.run = .running) (h : exec i s = .next t) :
    t.run = .halted ↔ i = .stp := by
  constructor
  · intro ht
    rcases exec_ends_or_goesOn h with ⟨_, _, -, rfl⟩ | ⟨hstp, -⟩ | ⟨hrun, -⟩
    · cases ht
    · exact hstp
    · cases hs.symm.trans (hrun.symm.trans ht)
  · rintro rfl
    cases h
    rfl

/-- A step halts past the end or at a STP. -/
theorem step_halts_iff {s t : State} (hs : s.run = .running) (h : step s = .next t) :
    t.run = .halted ↔ s.pc.toNat ≤ 4095 ∧
      (s.mem.size ≤ s.pc.toNat ∨ ∃ w, s.mem.read s.pc.toNat = some w ∧ decode w = .stp) := by
  constructor
  · intro ht
    rcases step_running hs with ⟨-, e⟩ | ⟨hpc, hsize, -⟩ | ⟨w, hpc, hw, e⟩
    · rw [e] at h
      cases h
      cases ht
    · exact ⟨hpc, .inl hsize⟩
    · rw [e] at h
      exact ⟨hpc, .inr ⟨w, hw, (exec_halts_iff hs h).1 ht⟩⟩
  · rintro ⟨hpc, hsize | ⟨w, hw, hstp⟩⟩
    · rw [step_of_pastEnd hs hpc hsize] at h
      cases h
      rfl
    · rw [step_of_word hs hpc hw] at h
      exact (exec_halts_iff hs h).2 hstp

/-- Settles O36: `step_halts_iff`, and a step that ends the run writes RUN alone. -/
theorem normalHaltExactlyWhen : Obligations.NormalHaltExactlyWhen := by
  intro s t hs h
  refine ⟨step_halts_iff hs h, fun ht => ?_⟩
  have heq : t = s.setRun t.run := eq_setRun_of_step h (by simp [ht])
  rw [ht] at heq
  exact heq

theorem exec_of_raises {i : Instr} {s : State} {cause : Cause} {info : Option Nat} (h : Raises i s cause info) :
    exec i s = .next (s.setRun (.fatal cause info)) := by
  rcases h with ⟨ind, af, loc, hd, hr, rfl, ⟨rfl, rfl⟩ | ⟨rfl, h0, hs⟩⟩ | ⟨rfl, rfl, rfl, hend⟩
  · exact exec_data_of_resolve_zero hd hr
  · exact exec_data_of_unloaded hr h0 hd hs
  · exact execRd_of_no_item (nextItem_eq_none.2 hend)

theorem exec_fatal_iff {i : Instr} {s t : State} {cause : Cause} {info : Option Nat} (hs : s.run = .running)
    (h : exec i s = .next t) : t.run = .fatal cause info ↔ Raises i s cause info := by
  constructor
  · intro ht
    rcases exec_ends_or_goesOn h with ⟨_, _, hraises, rfl⟩ | ⟨-, rfl⟩ | ⟨hrun, -⟩
    · cases ht
      exact hraises
    · cases ht
    · cases hs.symm.trans (hrun.symm.trans ht)
  · intro hraises
    rw [exec_of_raises hraises] at h
    cases h
    rfl

/-- The word at PC raises the fatal condition. -/
def FetchedRaises (s : State) (cause : Cause) (info : Option Nat) : Prop :=
  ∃ w, s.pc.toNat ≤ 4095 ∧ s.mem.read s.pc.toNat = some w ∧ Raises (decode w) s cause info

/-- Which fatal condition a step raises: PcOutOfRange before any fetch, the other three through the instruction. -/
theorem step_fatal_iff {s t : State} {cause : Cause} {info : Option Nat} (hs : s.run = .running)
    (h : step s = .next t) :
    t.run = .fatal cause info ↔
      (cause = .pcOutOfRange ∧ info = some s.pc.toNat ∧ 4095 < s.pc.toNat) ∨ FetchedRaises s cause info := by
  constructor
  · intro ht
    rcases step_running hs with ⟨hpc, e⟩ | ⟨-, -, e⟩ | ⟨w, hpc, hw, e⟩ <;> rw [e] at h
    · cases h
      cases ht
      exact .inl ⟨rfl, rfl, hpc⟩
    · cases h
      cases ht
    · exact .inr ⟨w, hpc, hw, (exec_fatal_iff hs h).1 ht⟩
  · rintro (⟨rfl, rfl, hpc⟩ | ⟨w, hpc, hw, hraises⟩)
    · rw [step_of_beyond hs hpc] at h
      cases h
      rfl
    · rw [step_of_word hs hpc hw] at h
      exact (exec_fatal_iff hs h).2 hraises

/-- Settles O35, by `step_fatal_iff`, whose fetched causes the statement lists one by one. -/
theorem fatalCausesAreExact : Obligations.FatalCausesAreExact := by
  intro s t cause info hs h
  rw [step_fatal_iff hs h]
  refine or_congr_right ⟨?_, ?_⟩
  · rintro ⟨w, hpc, hw, ⟨ind, af, loc, hd, hr, hinfo, hcause⟩ | ⟨hrd, hcause, hinfo, hend⟩⟩
    · exact .inl ⟨w, ind, af, loc, hpc, hw, hd, hr, hinfo, hcause⟩
    · exact .inr ⟨w, hpc, hw, hrd, hcause, hinfo, hend⟩
  · rintro (⟨w, ind, af, loc, hpc, hw, hd, hr, hinfo, hcause⟩ | ⟨w, hpc, hw, hrd, hcause, hinfo, hend⟩)
    · exact ⟨w, hpc, hw, .inl ⟨ind, af, loc, hd, hr, hinfo, hcause⟩⟩
    · exact ⟨w, hpc, hw, .inr ⟨hrd, hcause, hinfo, hend⟩⟩

end Sys2Proof.Machine
end

section
/-! PROOFS. A RUNNING machine always has a step, and an ended run stays as it is (40_fetch_decode_resolve.md R84,
60_exceptions.md R149, R151). -/

namespace Sys2Proof.Machine

/-- No meaning faults where the word at PC exists: Resolve gives a location, and CheckAccess guards every access. -/
theorem exists_exec_next {s : State} (h : s.pc.toNat < s.mem.size) (i : Instr) : ∃ t, exec i s = .next t := by
  have hresolve {ind : Bool} {af : Addr} : resolve ind af s ≠ none := fun hnone =>
    absurd (resolve_eq_none hnone) (Nat.not_le.2 h)
  have operand {ind : Bool} {af : Addr} (f : Word → Word) :
      ∃ t, withOperand pullet16 ind af s (fun m => advance (s.setAcc (f m))) = .next t := by
    rcases withOperand_eq ind af s (fun m => advance (s.setAcc (f m))) with
      ⟨hnone, -⟩ | ⟨loc, -, ⟨-, e⟩ | ⟨-, -, e⟩ | ⟨m, -, -, e⟩⟩
    · exact absurd hnone hresolve
    · exact ⟨_, e⟩
    · exact ⟨_, e⟩
    · exact ⟨_, e⟩
  have branch {ind : Bool} {af : Addr} : ∃ t, branchTo ind af s = .next t := by
    obtain ⟨loc, hr⟩ := exists_resolve h ind af
    exact ⟨_, branchTo_of_resolve hr⟩
  cases i with
  | add ind af => exact operand fun m => enc16 (tc16 pullet16 s.acc + tc16 pullet16 m)
  | and ind af => exact operand fun m => s.acc &&& m
  | sub ind af => exact operand fun m => enc16 (tc16 pullet16 s.acc - ((fieldAf m).toNat : Int))
  | ld ind af => exact operand fun m => (fieldAf m).setWidth 16
  | stc ind af =>
    rcases withLocation_eq ind af s (storeAndClear s) with
      ⟨hnone, -⟩ | ⟨loc, hr, ⟨-, e⟩ | ⟨-, -, e⟩ | ⟨h0, hs, -⟩⟩
    · exact absurd hnone hresolve
    · exact ⟨_, e⟩
    · exact ⟨_, e⟩
    · obtain ⟨m, hm⟩ := Memory.write_isSome s.acc hs
      exact ⟨_, execStc_of_write hr h0 hm⟩
  | br ind af => exact branch
  | ban ind af =>
    by_cases hneg : tc16 pullet16 s.acc < 0
    · obtain ⟨t, ht⟩ := branch (ind := ind) (af := af)
      exact ⟨t, (execBan_taken hneg ind af).trans ht⟩
    · exact ⟨_, execBan_not_taken hneg ind af⟩
  | rd =>
    rcases hitem : s.nextItem with _ | n | _
    · exact ⟨_, execRd_of_no_item hitem⟩
    · exact ⟨_, execRd_of_val hitem⟩
    · exact ⟨_, execRd_of_malformed hitem⟩
  | wrt | stp | nop000 | nop100 | nop101 | nop110 | nop111 => exact ⟨_, rfl⟩

/-- Settles O31: each of the three kinds of step of a RUNNING machine has a next state, and no other machine has one. -/
theorem stepEnabledExactlyWhileRunning : Obligations.StepEnabledExactlyWhileRunning := by
  intro s
  refine ⟨fun ⟨t, h⟩ => running_of_step h, fun hr => ?_⟩
  rcases step_running hr with ⟨-, e⟩ | ⟨-, -, e⟩ | ⟨w, -, hw, e⟩
  · exact ⟨_, e⟩
  · exact ⟨_, e⟩
  · rw [e]
    exact exists_exec_next (Memory.lt_of_read hw) (decode w)

theorem runFor_of_step {s t : State} (h : step s = .next t) (k : Nat) : runFor (k + 1) s = runFor k t := by
  simp only [runFor, h]

theorem runFor_of_ended {s : State} (h : s.ended) (k : Nat) : runFor k s = s := by
  cases k with
  | zero => rfl
  | succ k =>
    unfold runFor
    split
    · rename_i t ht
      exact absurd (running_of_step ht) h
    · rfl
    · rfl

theorem runFor_add (j k : Nat) (s : State) : runFor (j + k) s = runFor k (runFor j s) := by
  induction j generalizing s with
  | zero => rw [Nat.zero_add, runFor]
  | succ j ih =>
    by_cases hr : s.run = .running
    · obtain ⟨t, ht⟩ := (stepEnabledExactlyWhileRunning s).2 hr
      rw [Nat.add_right_comm, runFor_of_step ht, runFor_of_step ht, ih]
    · simp only [runFor_of_ended hr]

/-- Once a run has ended it is over at every later point. -/
theorem runFor_eq_of_ended {j k : Nat} {s : State} (hle : j ≤ k) (h : (runFor j s).ended) :
    runFor k s = runFor j s := by
  obtain ⟨d, rfl⟩ := Nat.exists_eq_add_of_le hle
  rw [runFor_add, runFor_of_ended h]

theorem ended_of_exitsNonZero {s : State} (h : exitsNonZero s.run = true) : s.ended := by
  intro hr
  rw [hr] at h
  cases h

theorem exitsNonZero_of_endedNormally {s : State} (h : s.endedNormally) : exitsNonZero s.run = false := by
  rw [show s.run = .halted from h]
  rfl

theorem ended_of_endedNormally {s : State} (h : s.endedNormally) : s.ended := by
  intro hr
  cases hr.symm.trans h

/-- Settles O32: two ends of one run are the same state, so a run that halted is FATAL neither before nor after. -/
theorem endsOfRunsAreFinal : Obligations.EndsOfRunsAreFinal := by
  refine ⟨fun k s h => runFor_of_ended h k, fun j k s h => ?_⟩
  rcases Nat.le_total k j with hle | hle
  · rw [runFor_eq_of_ended hle (ended_of_endedNormally h)]
    exact exitsNonZero_of_endedNormally h
  · by_contra hfatal
    have hended : (runFor j s).ended := ended_of_exitsNonZero (Bool.not_eq_false _ ▸ hfatal)
    rw [runFor_eq_of_ended hle hended] at h
    exact hfatal (exitsNonZero_of_endedNormally h)

end Sys2Proof.Machine
end

section
/-! PROOFS. The machine's invariant, what reset leaves, and that no run from reset has PC out of range (10_state.md R26,
R34, 70_reset_and_hazards.md R160, R163). -/

namespace Sys2Proof.Machine

theorem step_mem_wf {s t : State} (hwf : s.mem.wf = true) (h : step s = .next t) : t.mem.wf = true := by
  rcases step_mem h with hmem | ⟨loc, -, hwrite⟩
  · rw [hmem]
    exact hwf
  · exact Memory.write_wf hwf hwrite

theorem step_inPos_le {s t : State} (hpos : s.inPos ≤ s.input.length) (h : step s = .next t) :
    t.inPos ≤ s.input.length := by
  rcases step_inPos h with he | ⟨hlt, he⟩ <;> omega

theorem step_out_records {s t : State} (hout : ∀ r ∈ s.out, r.value = tc16 pullet16 r.pattern)
    (h : step s = .next t) : ∀ r ∈ t.out, r.value = tc16 pullet16 r.pattern := by
  rcases step_out h with he | he <;> rw [he]
  · exact hout
  · intro r hmem
    rcases List.mem_append.1 hmem with hold | hnew
    · exact hout r hold
    · rw [List.mem_singleton.1 hnew]

/-- Settles O37, field by field: what a step does to each part of the state keeps that part's clause. -/
theorem stepKeepsTheInvariant : Obligations.StepKeepsTheInvariant := by
  intro s t hs h
  obtain ⟨hsize, hinput⟩ := step_parameters h
  exact
    { mem_wf := step_mem_wf hs.mem_wf h
      mem_size := hsize ▸ hs.mem_size
      pc_range := step_pc_range hs.mem_size hs.pc_range h
      in_pos := hinput ▸ step_inPos_le hs.in_pos h
      in_items := hinput ▸ hs.in_items
      out_records := step_out_records hs.out_records h }

/-- A booted machine meets the invariant, whatever the host loaded (R163). -/
theorem State.boot_inv {mem0 : List Word} {input : List InItem} (hlen : mem0.length ≤ 4095)
    (hinput : ∀ it ∈ input, it.wf = true) : (State.boot mem0 input).Inv where
  mem_wf := Memory.load_wf mem0
  mem_size := hlen
  pc_range := Nat.zero_le _
  in_pos := Nat.zero_le _
  in_items := hinput
  out_records _ h := absurd h List.not_mem_nil

theorem State.restart_inv {s : State} (h : s.Inv) : s.restart.Inv where
  mem_wf := h.mem_wf
  mem_size := h.mem_size
  pc_range := Nat.zero_le _
  in_pos := Nat.zero_le _
  in_items := h.in_items
  out_records _ h := absurd h List.not_mem_nil

/-- Settles O38: `State.reset` is the machine booted with nothing. -/
theorem resetMeetsTheInvariant : Obligations.ResetMeetsTheInvariant := by
  refine ⟨?_, fun _ _ hlen hinput => State.boot_inv hlen hinput, fun _ h => State.restart_inv h⟩
  exact State.boot_inv (mem0 := []) (input := []) (Nat.zero_le _) fun _ h => absurd h List.not_mem_nil

/-- What keeps a run from PcOutOfRange; it asks nothing of the input, unlike `State.Inv`. -/
structure PcInRange (s : State) : Prop where
  size_le : s.mem.size ≤ 4095
  pc_le : s.pc.toNat ≤ 4095
  not_raised : ∀ info, s.run ≠ .fatal .pcOutOfRange info

theorem FetchedRaises.cause_ne {s : State} {cause : Cause} {info : Option Nat} (h : FetchedRaises s cause info) :
    cause ≠ .pcOutOfRange := by
  obtain ⟨w, -, -, ⟨_, _, _, -, -, -, ⟨rfl, -⟩ | ⟨rfl, -⟩⟩ | ⟨-, rfl, -⟩⟩ := h
  · decide
  · decide
  · decide

theorem step_pcInRange {s t : State} (hs : PcInRange s) (h : step s = .next t) : PcInRange t where
  size_le := (step_parameters h).1 ▸ hs.size_le
  pc_le := step_pc_range hs.size_le hs.pc_le h
  not_raised info ht := by
    rcases (step_fatal_iff (running_of_step h) h).1 ht with ⟨-, -, hpc⟩ | hfetched
    · exact absurd hs.pc_le (Nat.not_le.2 hpc)
    · exact hfetched.cause_ne rfl

theorem runFor_pcInRange (k : Nat) {s : State} (hs : PcInRange s) : PcInRange (runFor k s) :=
  runFor_induction (R := fun s u => PcInRange s → PcInRange u) (fun _ h => h)
    (fun _ _ _ h ih hs => ih (step_pcInRange hs h)) k s hs

/-- Settles O30: beyond KMAXMEMORY the step raises before any fetch, and a booted machine's PC stays within it. -/
theorem pcOutOfRangeIsUnreachable : Obligations.PcOutOfRangeIsUnreachable := by
  refine ⟨fun s hr hpc => step_of_beyond hr hpc, fun mem0 input k info hlen => ?_⟩
  have hboot : PcInRange (State.boot mem0 input) :=
    { size_le := hlen
      pc_le := Nat.zero_le _
      not_raised := fun _ h => by cases h }
  exact (runFor_pcInRange k hboot).not_raised info

end Sys2Proof.Machine
end

section
/-! PROOFS. The listing of a memory determines its words and is determined by them (10_state.md R31, R34,
20_memory.md R56). -/

namespace Sys2Proof.Machine

theorem cellsWf_cons {size lo a : Nat} {v : Word} {l : List (Nat × Word)} :
    cellsWf size lo ((a, v) :: l) = true ↔ lo ≤ a ∧ a < size ∧ v ≠ 0#16 ∧ cellsWf size (a + 1) l = true := by
  simp only [cellsWf, Bool.and_eq_true, decide_eq_true_eq, and_assoc]

theorem lookupCell_head (a : Nat) (v : Word) (l : List (Nat × Word)) : lookupCell a ((a, v) :: l) = v :=
  if_pos rfl

theorem lookupCell_tail {a b : Nat} (h : b ≠ a) (v : Word) (l : List (Nat × Word)) :
    lookupCell a ((b, v) :: l) = lookupCell a l :=
  if_neg h

/-- A canonical listing lists only addresses from its bound up to the size. -/
theorem bounds_of_lookupCell_ne_zero {size lo a : Nat} {l : List (Nat × Word)} (h : cellsWf size lo l = true)
    (ha : lookupCell a l ≠ 0#16) : lo ≤ a ∧ a < size := by
  induction l generalizing lo with
  | nil => exact absurd rfl ha
  | cons e r ih =>
    obtain ⟨b, v⟩ := e
    obtain ⟨hlo, hb, -, hr⟩ := cellsWf_cons.1 h
    by_cases hne : b = a
    · subst hne
      exact ⟨hlo, hb⟩
    · rw [lookupCell_tail hne] at ha
      obtain ⟨hle, hlt⟩ := ih hr ha
      exact ⟨by omega, hlt⟩

theorem lookupCell_of_lt {size lo a : Nat} {l : List (Nat × Word)} (h : cellsWf size lo l = true) (ha : a < lo) :
    lookupCell a l = 0#16 := by
  by_contra hne
  exact Nat.not_le.2 ha (bounds_of_lookupCell_ne_zero h hne).1

theorem lookupCell_of_size_le {size lo a : Nat} {l : List (Nat × Word)} (h : cellsWf size lo l = true)
    (ha : size ≤ a) : lookupCell a l = 0#16 := by
  by_contra hne
  exact Nat.not_lt.2 ha (bounds_of_lookupCell_ne_zero h hne).2

/-- If two canonical listings look up alike, the first address of one is listed in the other, so not before its first. -/
theorem first_le_of_lookup_eq {size lo lo' a b : Nat} {v u : Word} {l l' : List (Nat × Word)}
    (h : cellsWf size lo ((a, v) :: l) = true) (h' : cellsWf size lo' ((b, u) :: l') = true)
    (heq : ∀ c, lookupCell c ((a, v) :: l) = lookupCell c ((b, u) :: l')) : b ≤ a := by
  obtain ⟨-, -, hv, -⟩ := cellsWf_cons.1 h
  obtain ⟨-, hb, hu, hl'⟩ := cellsWf_cons.1 h'
  by_contra hlt
  have hfrom : cellsWf size b ((b, u) :: l') = true := cellsWf_cons.2 ⟨Nat.le_refl b, hb, hu, hl'⟩
  have hzero : lookupCell a ((a, v) :: l) = 0#16 := (heq a).trans (lookupCell_of_lt hfrom (by omega))
  exact hv ((lookupCell_head a v l).symm.trans hzero)

/-- A nonempty canonical listing does not read as zero everywhere. -/
theorem exists_lookupCell_ne_nil {size lo a : Nat} {v : Word} {l : List (Nat × Word)}
    (h : cellsWf size lo ((a, v) :: l) = true) : ∃ c, lookupCell c ((a, v) :: l) ≠ lookupCell c [] := by
  obtain ⟨-, -, hv, -⟩ := cellsWf_cons.1 h
  exact ⟨a, (lookupCell_head a v l).symm ▸ hv⟩

theorem cells_eq_of_lookup_eq {size lo lo' : Nat} {l l' : List (Nat × Word)} (h : cellsWf size lo l = true)
    (h' : cellsWf size lo' l' = true) (heq : ∀ c, lookupCell c l = lookupCell c l') : l = l' := by
  induction l generalizing lo lo' l' with
  | nil =>
    cases l' with
    | nil => rfl
    | cons e' r' =>
      obtain ⟨c, hc⟩ := exists_lookupCell_ne_nil h'
      exact absurd (heq c).symm hc
  | cons e r ih =>
    cases l' with
    | nil =>
      obtain ⟨c, hc⟩ := exists_lookupCell_ne_nil h
      exact absurd (heq c) hc
    | cons e' r' =>
      obtain ⟨a, v⟩ := e
      obtain ⟨b, u⟩ := e'
      obtain rfl : a = b :=
        Nat.le_antisymm (first_le_of_lookup_eq h' h fun c => (heq c).symm) (first_le_of_lookup_eq h h' heq)
      obtain ⟨-, -, -, hr⟩ := cellsWf_cons.1 h
      obtain ⟨-, -, -, hr'⟩ := cellsWf_cons.1 h'
      have hvu : v = u := by simpa only [lookupCell_head] using heq a
      have hrest (c : Nat) : lookupCell c r = lookupCell c r' := by
        by_cases hc : a = c
        · subst hc
          rw [lookupCell_of_lt hr (Nat.lt_succ_self a), lookupCell_of_lt hr' (Nat.lt_succ_self a)]
        · simpa only [lookupCell_tail hc] using heq c
      rw [hvu, ih hr hr' hrest]

/-- What a canonical memory's listing says of an address is what is read there, and 0x0000 where no word is. -/
theorem lookupCell_cells {m : Memory} (hwf : m.wf = true) (a : Nat) : lookupCell a m.cells = (m.read a).getD 0#16 := by
  rcases Nat.lt_or_ge a m.size with h | h
  · rw [Memory.read, if_pos h, Option.getD_some]
  · rw [Memory.read_eq_none.2 h, Option.getD_none]
    exact lookupCell_of_size_le hwf h

/-- Settles O49: equal reads give equal lookups at every address, and canonical listings that look alike are equal, by
induction on the two. -/
theorem canonicalMemoriesAreEqual : Obligations.CanonicalMemoriesAreEqual := by
  rintro ⟨size, cells⟩ ⟨size', cells'⟩ hwf hwf' hsize hread
  obtain rfl : size = size' := hsize
  have hlookup (c : Nat) : lookupCell c cells = lookupCell c cells' := by
    rw [lookupCell_cells hwf c, lookupCell_cells hwf' c, hread c]
  exact congrArg (Memory.mk size) (cells_eq_of_lookup_eq hwf hwf' hlookup)

/-- The listing of loaded words looks up the k-th word at the k-th address. -/
theorem lookupCell_loadCells (ws : List Word) (k i : Nat) : lookupCell (k + i) (loadCells k ws) = ws[i]?.getD 0#16 := by
  induction ws generalizing k i with
  | nil => rfl
  | cons w r ih =>
    cases i with
    | zero =>
      have hrest : cellsWf (k + 1 + r.length) (k + 1) (loadCells (k + 1) r) = true := cellsWf_loadCells r _ _ le_rfl
      by_cases hw : w = 0#16
      · simp [loadCells, hw, lookupCell_of_lt hrest (Nat.lt_succ_self k)]
      · simp [loadCells, hw, lookupCell_head]
    | succ i =>
      have hne : k ≠ k + 1 + i := by omega
      rw [show k + (i + 1) = k + 1 + i by omega, List.getElem?_cons_succ, ← ih (k + 1) i]
      by_cases hw : w = 0#16
      · simp [loadCells, hw]
      · simp [loadCells, hw, lookupCell_tail hne]

theorem Memory.read_load (ws : List Word) (k : Nat) : (Memory.load ws).read k = ws[k]? := by
  have hlookup : lookupCell k (loadCells 0 ws) = ws[k]?.getD 0#16 := by
    simpa only [Nat.zero_add] using lookupCell_loadCells ws 0 k
  rcases Nat.lt_or_ge k ws.length with h | h
  · rw [Memory.read, Memory.load, if_pos h, hlookup, List.getElem?_eq_getElem h, Option.getD_some]
  · rw [Memory.read_eq_none.2 h, List.getElem?_eq_none h]

/-- Settles O39: reset writes its five fields, and the loader's listing reads back. -/
theorem resetLeavesTheSpecValues : Obligations.ResetLeavesTheSpecValues :=
  ⟨fun _ => ⟨rfl, rfl, rfl, rfl, rfl, rfl, rfl⟩,
    fun mem0 _ k => ⟨Memory.read_load mem0 k, Memory.load_size mem0, rfl, rfl⟩⟩

end Sys2Proof.Machine
end

section
/-! PROOFS. Writing and fetching memory (20_memory.md R43, R51, 42_load_store.md R111, R113, 70_reset_and_hazards.md
R171). -/

namespace Sys2Proof.Machine

/-- Settles O41: memory changes only by the write of a STC, and a write changes one word. -/
theorem onlyStcWritesMemory : Obligations.OnlyStcWritesMemory := by
  refine ⟨fun i s t hstc h => ?_, fun ind af loc s t a hr h ha => ?_⟩
  · rcases exec_mem h with hmem | ⟨ind, af, _, hi, -⟩
    · exact hmem
    · exact absurd hi (hstc ind af)
  · rcases exec_mem h with hmem | ⟨_, _, loc', hi, hr', -, hwrite⟩
    · rw [hmem]
    · cases hi
      obtain rfl : loc = loc' := Option.some.inj (hr.symm.trans hr')
      obtain ⟨-, -, hread⟩ := Memory.write_spec hwrite
      rw [hread, if_neg ha]

theorem step_read_zero {s t : State} (h : step s = .next t) : t.mem.read 0 = s.mem.read 0 := by
  rcases step_mem h with hmem | ⟨loc, h0, hwrite⟩
  · rw [hmem]
  · have hne : 0 ≠ loc.toNat := fun hzero => h0 (BitVec.eq_of_toNat_eq hzero.symm)
    obtain ⟨-, -, hread⟩ := Memory.write_spec hwrite
    rw [hread, if_neg hne]

/-- Settles O42: CheckAccess lets no STC write at location 0. -/
theorem addressZeroIsNeverWritten : Obligations.AddressZeroIsNeverWritten :=
  ⟨fun _ _ h => step_read_zero h,
    runFor_induction (R := fun s u => u.mem.read 0 = s.mem.read 0) (fun _ => rfl)
      fun _ _ _ h ih => ih.trans (step_read_zero h)⟩

theorem toNat_ofNat_addr (loc : Addr) : (BitVec.ofNat 16 loc.toNat).toNat = loc.toNat := by
  rw [BitVec.ofNat_toNat]
  exact BitVec.toNat_setWidth_of_le (by decide)

/-- Settles O46: the store's location reads as the accumulator's pattern, so a fetch there runs what that decodes to. -/
theorem storedWordsAreFetched : Obligations.StoredWordsAreFetched := by
  intro ind af loc s t hrun hr h0 hs h
  obtain ⟨m, hexec, -, hread, -⟩ := stcEffect ind af loc s hr h0 hs
  rw [hexec] at h
  cases h
  have hlt : loc.toNat < 4096 := loc.isLt
  refine step_of_word hrun ?_ ?_
  · rw [toNat_ofNat_addr]
    omega
  · rw [toNat_ofNat_addr]
    exact hread

/-- Settles O47, by the effects of STC and of LD: the field stays at or below PC, which the STC has advanced. -/
theorem stcThenLdKeepsTwelveBits : Obligations.StcThenLdKeepsTwelveBits := by
  intro n s h0 hpc hs hmax
  obtain ⟨m, hstc, -, hread, -⟩ := stcEffect false n n s (resolve_direct hpc) h0 hs
  have hnext : (s.pc + 1#16).toNat = s.pc.toNat + 1 := toNat_pc_succ hmax
  have hresolve : resolve false n { s with mem := m, acc := 0#16, pc := s.pc + 1#16 } = some n :=
    resolve_direct (by dsimp only; omega)
  refine ⟨_, _, hstc, rfl, hread, ldEffect false n n _ s.acc hresolve h0 hread, ?_, ?_⟩
  · exact Nat.mod_eq_of_lt (by omega)
  · exact BitVec.add_assoc s.pc 1#16 1#16

end Sys2Proof.Machine
end

section
/-! PROOFS. Which instructions write the accumulator and which read it (10_state.md R23). -/

namespace Sys2Proof.Machine

theorem besideAddressing_setAcc (a : Word) : BesideAddressing (State.setAcc · a) where
  pc _ := rfl
  mem _ := rfl
  setPc _ _ := rfl
  setRun _ _ := rfl

/-- The instructions that neither read nor write ACC: they do the same beside any accumulator. -/
theorem exec_setAcc {ind : Bool} {af : Addr} {i : Instr}
    (hi : i ∈ [Instr.br ind af, .stp, .nop000, .nop100, .nop101, .nop110, .nop111]) (a : Word) (s : State) :
    exec i (s.setAcc a) = onNext (State.setAcc · a) (exec i s) := by
  have hedit : BesideAddressing (State.setAcc · a) := besideAddressing_setAcc a
  simp only [List.mem_cons, List.not_mem_nil, or_false] at hi
  rcases hi with rfl | rfl | rfl | rfl | rfl | rfl | rfl
  · exact branchTo_edit hedit ind af s
  · exact halt_edit hedit s
  · exact advance_edit hedit s
  · exact advance_edit hedit s
  · exact advance_edit hedit s
  · exact advance_edit hedit s
  · exact advance_edit hedit s

/-- Whether a data instruction or RD is turned away does not depend on ACC. -/
theorem Raises.setAcc {i : Instr} {s : State} {cause : Cause} {info : Option Nat} (a : Word)
    (h : Raises i s cause info) : Raises i (s.setAcc a) cause info := by
  rcases h with ⟨ind, af, loc, hd, hr, hrest⟩ | hrd
  · exact .inl ⟨ind, af, loc, hd, (resolve_edit (besideAddressing_setAcc a) ind af s).trans hr, hrest⟩
  · exact .inr hrd

/-- A turned-away instruction is turned away from any accumulator, and leaves that. -/
theorem exec_setAcc_of_raises {i : Instr} {s t : State} (a : Word)
    (h : ∃ cause info, Raises i s cause info ∧ t = s.setRun (.fatal cause info)) :
    ∃ cause info, t.run = .fatal cause info ∧ exec i (s.setAcc a) = .next (t.setAcc a) := by
  obtain ⟨cause, info, hraises, rfl⟩ := h
  exact ⟨cause, info, rfl, exec_of_raises (hraises.setAcc a)⟩

/-- LD and RD write ACC without reading it: from another accumulator they end in the same state, unless they are turned
away, and then only ACC is another. -/
theorem exec_setAcc_of_overwrites {ind : Bool} {af : Addr} {i : Instr} (hi : i ∈ [Instr.ld ind af, .rd]) {s t : State}
    (a : Word) (h : exec i s = .next t) :
    exec i (s.setAcc a) = .next t ∨
    ∃ cause info, t.run = .fatal cause info ∧ exec i (s.setAcc a) = .next (t.setAcc a) := by
  simp only [List.mem_cons, List.not_mem_nil, or_false] at hi
  rcases hi with rfl | rfl
  · rcases withOperand_next (f := fun m => (fieldAf m).setWidth 16) h with haway | ⟨loc, m, hr, h0, hm, rfl⟩
    · exact .inr (exec_setAcc_of_raises a (haway.raises rfl))
    · have hr' : resolve ind af (s.setAcc a) = some loc := (resolve_edit (besideAddressing_setAcc a) ind af s).trans hr
      exact .inl (withOperand_setAcc hr' h0 hm fun m => (fieldAf m).setWidth 16)
  · rcases execRd_next h with ⟨hend, rfl⟩ | ⟨n, hitem, rfl⟩ | ⟨hitem, rfl⟩
    · exact .inr (exec_setAcc_of_raises a ⟨_, _, .inr ⟨rfl, rfl, rfl, hend⟩, rfl⟩)
    · exact .inl (execRd_of_val (s := s.setAcc a) hitem)
    · exact .inl (execRd_of_malformed (s := s.setAcc a) hitem)

/-- Settles O43: the instructions that do not read ACC either do not see it at all or overwrite it unread. -/
theorem accumulatorReadersAndWriters : Obligations.AccumulatorReadersAndWriters := by
  refine ⟨fun ind af s t i hi h => ?_, fun ind af s t a i hi h => ?_, fun ind af s t a i hi hs h ht => ?_⟩
  · have hkeeps : dataOperands i = none ∧ i ≠ .rd := by
      simp only [List.mem_cons, List.not_mem_nil, or_false] at hi
      rcases hi with rfl | rfl | rfl | rfl | rfl | rfl | rfl | rfl | rfl <;> exact ⟨rfl, nofun⟩
    exact exec_acc hkeeps.1 hkeeps.2 h
  · by_cases hover : i ∈ [Instr.ld ind af, .rd]
    · rcases exec_setAcc_of_overwrites hover a h with e | ⟨_, _, -, e⟩
      · exact ⟨t, e, rfl⟩
      · exact ⟨t.setAcc a, e, rfl⟩
    · have hblind : i ∈ [Instr.br ind af, .stp, .nop000, .nop100, .nop101, .nop110, .nop111] := by
        simp only [List.mem_cons, List.not_mem_nil, or_false] at hi hover ⊢
        tauto
      have hedit := exec_setAcc hblind a s
      rw [h] at hedit
      exact ⟨t.setAcc a, hedit, rfl⟩
  · rcases exec_setAcc_of_overwrites hi a h with e | ⟨_, _, hfatal, -⟩
    · exact e
    · cases ht.symm.trans hfatal

end Sys2Proof.Machine
end

section
/-! PROOFS. Whole runs: the output grows (20_memory.md R54) and a branch to its own address hangs (60_exceptions.md
R152). -/

namespace Sys2Proof.Machine

theorem step_out_append {s t : State} (h : step s = .next t) : ∃ rs, t.out = s.out ++ rs := by
  rcases step_out h with he | he
  · exact ⟨[], he.trans (List.append_nil _).symm⟩
  · exact ⟨_, he⟩

/-- Settles O45, by induction over the run. -/
theorem outputIsAppendOnly : Obligations.OutputIsAppendOnly := by
  refine runFor_induction (R := fun s u => ∃ rs, u.out = s.out ++ rs) (fun s => ⟨[], (List.append_nil _).symm⟩) ?_
  rintro s t u h ⟨rs, hu⟩
  obtain ⟨rs', ht⟩ := step_out_append h
  exact ⟨rs' ++ rs, by rw [hu, ht, List.append_assoc]⟩

theorem runFor_of_fixed {s : State} (h : step s = .next s) (k : Nat) : runFor k s = s := by
  induction k with
  | zero => rfl
  | succ k ih => rw [runFor_of_step h, ih]

theorem hangs_of_fixed {s : State} (h : step s = .next s) : s.Hangs := by
  intro k
  rw [runFor_of_fixed h]
  exact fun hended => hended (running_of_step h)

/-- A direct field that is PC resolves to PC, so taking the branch changes nothing. -/
theorem branchTo_self {n : Addr} {s : State} (h : n.toNat = s.pc.toNat) : branchTo false n s = .next s := by
  have hpc : BitVec.ofNat 16 n.toNat = s.pc := by rw [h, BitVec.ofNat_toNat, BitVec.setWidth_eq]
  rw [branchTo_ofNat (resolve_direct h.le), hpc]

/-- Settles O48: the branch is taken to PC itself, the step leaves the state, and so does every further one. -/
theorem selfBranchesHang : Obligations.SelfBranchesHang := by
  intro s w n hr hw hn hbranch
  have hlt : n.toNat < 4096 := n.isLt
  have htakes : TakesBranch (decode w) false n s := hbranch.imp_right (And.imp_right tc16_neg_iff.2)
  have hstep : step s = .next s := by
    rw [step_of_word hr (by omega) hw, htakes.exec_eq, branchTo_self hn]
  exact ⟨hstep, hangs_of_fixed hstep⟩

end Sys2Proof.Machine
end

section
/-! PROOFS. Input tokens (20_memory.md R53). -/

namespace Sys2Proof.Machine

/-- The sixteen digits of R53, each at its value. -/
def upperHexDigits : List Char :=
  ['0', '1', '2', '3', '4', '5', '6', '7', '8', '9', 'A', 'B', 'C', 'D', 'E', 'F']

theorem hexDigit_getD (k : Fin 16) : hexDigit (upperHexDigits.getD k ' ') = some k.val := by
  revert k
  decide

theorem decimal_mem_upperHexDigits : ∀ k < 10, Char.ofNat (48 + k) ∈ upperHexDigits := by decide

theorem letter_mem_upperHexDigits : ∀ k < 6, Char.ofNat (65 + k) ∈ upperHexDigits := by decide

/-- A character with a digit value is one of the sixteen, and its value is at most 15. -/
theorem hexDigit_eq_some {ch : Char} {h : Nat} (hd : hexDigit ch = some h) : h ≤ 15 ∧ ch ∈ upperHexDigits := by
  unfold hexDigit at hd
  split at hd
  · rename_i hrange
    have hlo : 48 ≤ ch.toNat := hrange.1
    have hhi : ch.toNat ≤ 57 := hrange.2
    have hval : ch.toNat - 48 = h := Option.some.inj hd
    have hmem := decimal_mem_upperHexDigits (ch.toNat - 48) (by omega)
    rw [Nat.add_sub_cancel' hlo, Char.ofNat_toNat] at hmem
    exact ⟨by omega, hmem⟩
  · split at hd
    · rename_i hrange
      have hlo : 65 ≤ ch.toNat := hrange.1
      have hhi : ch.toNat ≤ 70 := hrange.2
      have hval : ch.toNat - 65 + 10 = h := Option.some.inj hd
      have hmem := letter_mem_upperHexDigits (ch.toNat - 65) (by omega)
      rw [Nat.add_sub_cancel' hlo, Char.ofNat_toNat] at hmem
      exact ⟨by omega, hmem⟩
    · cases hd

theorem tokenSign_eq_some {ch : Char} {n : Int} (h : tokenSign ch = some n) :
    (ch = '+' ∧ n = 1) ∨ (ch = '-' ∧ n = -1) := by
  unfold tokenSign at h
  split at h
  · rename_i hch
    exact .inl ⟨hch, (Option.some.inj h).symm⟩
  · split at h
    · rename_i hch
      exact .inr ⟨hch, (Option.some.inj h).symm⟩
    · cases h

/-- The tokens of R53, a sign and four digits, each with the value it stands for. -/
inductive SignedHex : List Char → Int → Prop
  | intro {sg c3 c2 c1 c0 : Char} {sgn : Int} {h3 h2 h1 h0 : Nat} (hsg : tokenSign sg = some sgn)
      (hc3 : hexDigit c3 = some h3) (hc2 : hexDigit c2 = some h2) (hc1 : hexDigit c1 = some h1)
      (hc0 : hexDigit c0 = some h0) :
      SignedHex [sg, c3, c2, c1, c0] (sgn * ((4096 * h3 + 256 * h2 + 16 * h1 + h0 : Nat) : Int))

/-- A token has a value exactly in the form of R53. -/
theorem itemOfToken_eq_val_iff {cs : List Char} {n : Int} : itemOfToken cs = .val n ↔ SignedHex cs n := by
  constructor
  · intro h
    unfold itemOfToken at h
    split at h
    · split at h
      · rename_i hsg hc3 hc2 hc1 hc0
        cases h
        exact .intro hsg hc3 hc2 hc1 hc0
      · cases h
    · cases h
  · rintro ⟨hsg, hc3, hc2, hc1, hc0⟩
    simp only [itemOfToken, hsg, hc3, hc2, hc1, hc0]

theorem SignedHex.range {cs : List Char} {n : Int} (h : SignedHex cs n) : -65535 ≤ n ∧ n ≤ 65535 := by
  obtain ⟨hsg, hc3, hc2, hc1, hc0⟩ := h
  have hb3 := (hexDigit_eq_some hc3).1
  have hb2 := (hexDigit_eq_some hc2).1
  have hb1 := (hexDigit_eq_some hc1).1
  have hb0 := (hexDigit_eq_some hc0).1
  rcases tokenSign_eq_some hsg with ⟨-, rfl⟩ | ⟨-, rfl⟩ <;> omega

theorem SignedHex.form {cs : List Char} {n : Int} (h : SignedHex cs n) :
    cs.length = 5 ∧ (cs.head? = some '+' ∨ cs.head? = some '-') ∧ ∀ ch ∈ cs.tail, ch ∈ upperHexDigits := by
  obtain ⟨hsg, hc3, hc2, hc1, hc0⟩ := h
  refine ⟨rfl, ?_, ?_⟩
  · rcases tokenSign_eq_some hsg with ⟨rfl, -⟩ | ⟨rfl, -⟩
    · exact .inl rfl
    · exact .inr rfl
  · simp only [List.tail_cons, List.forall_mem_cons]
    exact ⟨(hexDigit_eq_some hc3).2, (hexDigit_eq_some hc2).2, (hexDigit_eq_some hc1).2, (hexDigit_eq_some hc0).2,
      List.forall_mem_nil _⟩

/-- Settles O50: the tokens with a value are those of the form of R53, and a token that is not Malformed has a value. -/
theorem inputTokensAreSignedHex : Obligations.InputTokensAreSignedHex := by
  refine ⟨?_, fun cs n h => (itemOfToken_eq_val_iff.1 h).range, fun cs h => ?_⟩
  · rintro neg h3 h2 h1 h0 _ rfl
    have hsign : tokenSign (if neg then '-' else '+') = some (if neg then -1 else 1) := by
      cases neg <;> rfl
    have htoken := itemOfToken_eq_val_iff.2
      (.intro hsign (hexDigit_getD h3) (hexDigit_getD h2) (hexDigit_getD h1) (hexDigit_getD h0))
    push_cast at htoken
    exact htoken
  · cases hitem : itemOfToken cs with
    | val n => exact (itemOfToken_eq_val_iff.1 hitem).form
    | malformed => exact absurd hitem h

end Sys2Proof.Machine
end
